-- ==== Sys2Proof/Word.lean ====
section
/-! DEFINITION. The word types of the CRC core that do not depend on its configuration.

W-bit values (the accumulator, a table entry, the polynomial) are `BitVec w`, with `w` the accumulator
width of the configuration (spec/00_scope.md R15: every value is an unsigned integer of a stated width).
Bit 0 is the least significant bit (R14), which is `BitVec`'s own numbering. -/

namespace Sys2Proof

/-- An 8-bit value: one message byte, or the IMM8 field of a command (R41, R60). -/
abbrev Byte := BitVec 8

/-- A command word as it stands on the `CMD` port: always exactly 16 bits (R60, R61). -/
abbrev CmdWord := BitVec 16

end Sys2Proof
end

