-- ==== Sys2Proof/Config.lean ====
section
/-! DEFINITION. The configuration of a CRC core (spec/00_scope.md R10 to R12): the six build-time
parameters, the constants derived from them, and the raw parameter values an elaborator is handed.

`Config` holds legal configurations only. `RawConfig` is any choice of parameter values, and
`RawConfig.configOk` (WellFormed.lean, R151) says which of them give a block.
The spec leaves no value open to a free constant: `LATENCY`, its one open parameter, is timing only (R13, R180). -/

namespace Sys2Proof

/-- The accumulator width `W` (R10): 8, 16, 32 or 64 bits. -/
inductive Width where
  | w8
  | w16
  | w32
  | w64
deriving DecidableEq, Repr

/-- `W` as a number of bits. -/
def Width.bits : Width → Nat
  | .w8 => 8
  | .w16 => 16
  | .w32 => 32
  | .w64 => 64

/-- `MASK_W = 2^W - 1` (R11). -/
def Width.mask (w : Width) : Nat := 2 ^ w.bits - 1

/-- The rotation direction `DIR` (R10). Both directions are shifts (R18, conflict C2). -/
inductive Dir where
  /-- MSB-first. -/
  | forward
  /-- LSB-first. -/
  | reverse
deriving DecidableEq, Repr

/-- The spec's own code of `DIR`: FORWARD = 0, REVERSE = 1 (spec/10_state.md R23). -/
def Dir.code : Dir → Nat
  | .forward => 0
  | .reverse => 1

/-- The table size, which selects `CHUNK` (R10, R18). -/
inductive Chunk where
  /-- `CHUNK = 2`. -/
  | tiny
  /-- `CHUNK = 4`. -/
  | small
  /-- `CHUNK = 8`. -/
  | large
deriving DecidableEq, Repr

/-- `CHUNK`: the chunk width in bits. -/
def Chunk.bits : Chunk → Nat
  | .tiny => 2
  | .small => 4
  | .large => 8

/-- `N_CHUNKS = 8 / CHUNK`: the table lookups one byte takes (R11, R110). -/
def Chunk.count (c : Chunk) : Nat := 8 / c.bits

/-- `TABLE_ENTRIES = 2^CHUNK` (R11). -/
def Chunk.entries (c : Chunk) : Nat := 2 ^ c.bits

/-- `CHUNK_MASK = 2^CHUNK - 1` (R11). -/
def Chunk.mask (c : Chunk) : Nat := 2 ^ c.bits - 1

/-- The parameters of a core whose accumulator is `w` bits wide (R10). `poly` and `init` are in
MSB-first form in both directions (R18). -/
structure Params (w : Nat) where
  poly   : BitVec w
  init   : BitVec w
  xorout : BitVec w
  dir    : Dir
  chunk  : Chunk
deriving DecidableEq, Repr

/-- A legal configuration: all six parameters (R10). Constant for the life of the block (R23). -/
structure Config where
  width  : Width
  params : Params width.bits
deriving DecidableEq, Repr

/-- Parameter values as an elaborator is handed them, legal or not (R151). `dir` is the code of R23. -/
structure RawConfig where
  w      : Nat
  poly   : Nat
  init   : Nat
  xorout : Nat
  dir    : Nat
  chunk  : Nat
deriving DecidableEq, Repr

/-- The identity string `CRCCORE-W<W>-<F|R>-C<CHUNK>` of a configured core (R3, decision D22). -/
def Config.identity (cfg : Config) : String :=
  "CRCCORE-W" ++
    (match cfg.width with
     | .w8 => "8"
     | .w16 => "16"
     | .w32 => "32"
     | .w64 => "64") ++
    (match cfg.params.dir with
     | .forward => "-F-C"
     | .reverse => "-R-C") ++
    (match cfg.params.chunk with
     | .tiny => "2"
     | .small => "4"
     | .large => "8")

/-- The configuration of the one state `State.reset`. DESIGN CHOICE (assumption 1): the spec fixes no
configuration, the source's CRC-32 (spec/95_test_vectors.md §1.1) with the large table is taken, because the opcode table's
CRC.TREAD row is written for `CHUNK = 8`. Unsafe only for a claim about `State.reset` alone: every
other definition and claim takes the configuration from the state. -/
def Config.atReset : Config where
  width := .w32
  params :=
    { poly := 0x04C11DB7#32, init := 0xFFFFFFFF#32, xorout := 0xFFFFFFFF#32, dir := .reverse, chunk := .large }

end Sys2Proof
end

