-- ==== Sys2Proof/Syntax.lean ====
section
/-! DEFINITION. The commands of the CRC core: one constructor for each row of spec/opcode_table.json
(spec/30_encoding.md R63). Operands that travel in the command word are arguments; CRC.REV's operand
travels on the `OPND` port and is read from the state (R62). -/

namespace Sys2Proof

/-- The five commands. -/
inductive Instr where
  /-- `CRC.RESET`: ACC becomes the direction-adjusted initial value (spec/43_engine.md R132). -/
  | reset
  /-- `CRC.UPDATE byte`: fold one byte into ACC (spec/42_chunked_update.md R117). -/
  | update (byte : Byte)
  /-- `CRC.FINAL`: respond with `ACC ^ XOROUT` (spec/43_engine.md R133). -/
  | final
  /-- `CRC.TREAD index`: respond with one lookup-table entry (spec/41_table_generator.md R98). -/
  | tread (index : Byte)
  /-- `CRC.REV`: respond with the bit reversal of OPND (spec/40_bit_reversal.md R84). -/
  | rev
deriving DecidableEq, Repr

end Sys2Proof
end

