-- ==== Sys2Proof/WellFormed.lean ====
section
/-! DEFINITION. Which configurations give a block (spec/60_exceptions.md R151), and which commands are
well formed for a table size (spec/30_encoding.md R65). -/

namespace Sys2Proof

/-- `config_ok` (R151). The type mark of the source (an unsigned accumulator) holds by construction. -/
def RawConfig.configOk (r : RawConfig) : Bool :=
  (r.w == 8 || r.w == 16 || r.w == 32 || r.w == 64) &&
    (r.chunk == 2 || r.chunk == 4 || r.chunk == 8) &&
    decide (r.poly < 2 ^ r.w) && decide (r.init < 2 ^ r.w) && decide (r.xorout < 2 ^ r.w) &&
    (r.dir == 0 || r.dir == 1)

/-- A command is well formed for a table size when a CRC.TREAD index lies below TABLE_ENTRIES (R62, R65).
The other commands have no operand that could be out of range. -/
def Instr.wf (c : Chunk) : Instr → Bool
  | .reset => true
  | .update _ => true
  | .final => true
  | .tread index => decide (index.toNat < c.entries)
  | .rev => true

end Sys2Proof
end

