-- ==== Sys2Proof/Decode.lean ====
section
/-! DEFINITION. The command decoder, total over all 2^16 words (spec/30_encoding.md R64), with a name
for each reason a word is illegal (R65); the encoder written from the patterns of R63; and the rows of
the opcode table as masks and match values. -/

namespace Sys2Proof

/-- `OP`, bits 15:12 (R60). -/
def opField (cmd : CmdWord) : BitVec 4 := cmd.extractLsb' 12 4

/-- `RSV`, bits 11:8 (R60). -/
def rsvField (cmd : CmdWord) : BitVec 4 := cmd.extractLsb' 8 4

/-- `IMM8`, bits 7:0 (R60). -/
def imm8Field (cmd : CmdWord) : Byte := cmd.extractLsb' 0 8

/-- Why a word is illegal (R65). The hardware does not report which reason applied (R153): these
names are the decoder's own. -/
inductive IllegalWord where
  /-- `RSV ≠ 0`. -/
  | rsvNotZero
  /-- OP = 0x0 or OP = 0x6 to 0xF. -/
  | opIllegal
  /-- `IMM8 ≠ 0` for CRC.RESET, CRC.FINAL or CRC.REV. -/
  | imm8NotZero
  /-- A CRC.TREAD index at or above TABLE_ENTRIES. -/
  | indexOutOfRange
deriving DecidableEq, Repr

/-- What a command word decodes to: exactly one command, or ILLEGAL (R64). -/
inductive Decoded where
  | command (i : Instr)
  | illegal (why : IllegalWord)
deriving DecidableEq, Repr

/-- A command whose IMM8 field must be zero (R60). -/
def withZeroImm8 (imm : Byte) (i : Instr) : Decoded :=
  if imm = 0x00#8 then .command i else .illegal .imm8NotZero

/-- CRC.TREAD's index check (R65): an index is never wrapped. -/
def decodeTread (c : Chunk) (index : Byte) : Decoded :=
  if index.toNat < c.entries then .command (.tread index) else .illegal .indexOutOfRange

/-- The decoder of a core with table size `c` (R64). -/
def decode (c : Chunk) (cmd : CmdWord) : Decoded :=
  if rsvField cmd ≠ 0x0#4 then .illegal .rsvNotZero
  else match (opField cmd).toNat with
    | 0x1 => withZeroImm8 (imm8Field cmd) .reset
    | 0x2 => .command (.update (imm8Field cmd))
    | 0x3 => withZeroImm8 (imm8Field cmd) .final
    | 0x4 => decodeTread c (imm8Field cmd)
    | 0x5 => withZeroImm8 (imm8Field cmd) .rev
    | _ => .illegal .opIllegal

/-- A command word from its OP and IMM8 fields, with RSV = 0 (R60). -/
def commandWord (op : BitVec 4) (imm : Byte) : CmdWord := op ++ 0x0#4 ++ imm

/-- The word of a command (R63, the table of bit patterns). -/
def encode : Instr → CmdWord
  | .reset => commandWord 0x1#4 0x00#8
  | .update byte => commandWord 0x2#4 byte
  | .final => commandWord 0x3#4 0x00#8
  | .tread index => commandWord 0x4#4 index
  | .rev => commandWord 0x5#4 0x00#8

/-- One row of the opcode table (R63; spec/opcode_table.json). -/
structure OpcodeRow where
  mnemonic : String
  matchBits : CmdWord
  mask : CmdWord
deriving DecidableEq, Repr

/-- CRC.TREAD's mask for each table size (R63; `mask_by_chunk` of spec/opcode_table.json). -/
def treadMask : Chunk → CmdWord
  | .tiny => 0xFFFC#16
  | .small => 0xFFF0#16
  | .large => 0xFF00#16

/-- The opcode table of a core with table size `c` (R63). -/
def opcodeRows (c : Chunk) : List OpcodeRow :=
  [ ⟨"CRC.RESET", 0x1000#16, 0xFFFF#16⟩,
    ⟨"CRC.UPDATE", 0x2000#16, 0xFF00#16⟩,
    ⟨"CRC.FINAL", 0x3000#16, 0xFFFF#16⟩,
    ⟨"CRC.TREAD", 0x4000#16, treadMask c⟩,
    ⟨"CRC.REV", 0x5000#16, 0xFFFF#16⟩ ]

/-- A word matches a row when its masked bits are the row's match value. -/
def OpcodeRow.matches (row : OpcodeRow) (cmd : CmdWord) : Bool := (cmd &&& row.mask) == row.matchBits

/-- The row a command belongs to, by the opcode table's spelling. -/
def Instr.mnemonic : Instr → String
  | .reset => "CRC.RESET"
  | .update _ => "CRC.UPDATE"
  | .final => "CRC.FINAL"
  | .tread _ => "CRC.TREAD"
  | .rev => "CRC.REV"

/-- The decoder's answer as an option: a command, or nothing. -/
def Decoded.instr? : Decoded → Option Instr
  | .command i => some i
  | .illegal _ => none

/-- The 16-bit word on `CMD` for an instruction whose low `nbits` bits are those of `w` (the bits above are 0). -/
def tableWord (nbits w : Nat) : CmdWord := BitVec.ofNat 16 (w % 2 ^ nbits)

/-- The decoder applied to an opcode-table word, for the configuration of `State.reset` (assumption 1).
Every command is one 16-bit word (R61), so a wider one is no command. -/
def decodeTableWord (nbits w : Nat) : Option Instr :=
  if nbits ≤ 16 then (decode Config.atReset.params.chunk (tableWord nbits w)).instr? else none

end Sys2Proof
end

