-- ==== Sys2Proof/Machine/BitReversal.lean ====
section
/-! DEFINITION. The bit-reversal unit (spec/40_bit_reversal.md R80) and its use in the initial value
(spec/43_engine.md R131). Pure functions of their arguments (R81). -/

namespace Sys2Proof.Machine

/-- Bits 0 to `n-1` of the reversal of `x`; the bits above are zero: the loop of R80 after `n` rounds. -/
def reverseLow {w : Nat} (x : BitVec w) : Nat → BitVec w
  | 0 => 0#w
  | n + 1 => if x.getLsbD (w - 1 - n) then reverseLow x n ||| BitVec.twoPow w n else reverseLow x n

/-- `reverse_bits_W(x)`: bit `i` of the result is bit `W-1-i` of `x` (R80). -/
def reverseBits {w : Nat} (x : BitVec w) : BitVec w := reverseLow x w

/-- `INIT_ADJ`: the direction-adjusted initial value (R11, R131). Conflict C1 is settled for this form. -/
def initAdj {w : Nat} (p : Params w) : BitVec w :=
  match p.dir with
  | .forward => p.init
  | .reverse => reverseBits p.init

end Sys2Proof.Machine
end

