-- ==== Sys2Proof/Machine/TableGenerator.lean ====
section
/-! DEFINITION. The lookup-table generator (spec/41_table_generator.md R90 to R94): one entry by `c`
rounds of the CRC shift-register recurrence, and the whole table slot by slot. -/

namespace Sys2Proof.Machine

/-- One forward round (R91): the top bit is tested before the shift, and the bit shifted out is lost (conflict C2). -/
def forwardRound {w : Nat} (poly r : BitVec w) : BitVec w :=
  if r.msb then (r <<< 1) ^^^ poly else r <<< 1

/-- One reverse round (R92), with `p` the reversed polynomial. -/
def reverseRound {w : Nat} (p r : BitVec w) : BitVec w :=
  if r.getLsbD 0 then (r >>> 1) ^^^ p else r >>> 1

/-- Forward generation (R91): the index in the top `c` bits, then `c` rounds. -/
def forwardEntry {w c : Nat} (poly : BitVec w) (index : BitVec c) : BitVec w :=
  Nat.iterate (forwardRound poly) c (index.setWidth w <<< (w - c))

/-- Reverse generation (R92): the index in the low `c` bits, then `c` rounds. -/
def reverseEntry {w c : Nat} (poly : BitVec w) (index : BitVec c) : BitVec w :=
  Nat.iterate (reverseRound (reverseBits poly)) c (index.setWidth w)

/-- `generate_entry(poly, c, dir, index)` (R90). -/
def generateEntry {w c : Nat} (poly : BitVec w) (dir : Dir) (index : BitVec c) : BitVec w :=
  match dir with
  | .forward => forwardEntry poly index
  | .reverse => reverseEntry poly index

/-- `build(poly, c, dir)`: slot `i` holds `generate_entry(poly, c, dir, i)` (R94). -/
def build {w : Nat} (poly : BitVec w) (c : Nat) (dir : Dir) : List (BitVec w) :=
  (List.range (2 ^ c)).map fun i => generateEntry poly dir (BitVec.ofNat c i)

/-- The table of a configuration: `TABLE = build(POLY, CHUNK, DIR)` (R94). INIT and XOROUT play no part. -/
def configTable {w : Nat} (p : Params w) : List (BitVec w) := build p.poly p.chunk.bits p.dir

/-- Entry `i` of the table of a configuration (R94), for an index that is in range by its type (R115). -/
abbrev entryOf {w : Nat} (p : Params w) (i : BitVec p.chunk.bits) : BitVec w := generateEntry p.poly p.dir i

end Sys2Proof.Machine
end

