-- ==== Sys2Proof/Machine/State.lean ====
section
/-! DEFINITION. The state of a CRC core (spec/10_state.md R20 to R30) as plain data, why a step can stop, and the
state after hardware reset.

The spec's own state is the accumulator ACC (R21), the lookup table TABLE (R22) and the constant
configuration (R23). Beside it stand the ports as a transaction-level model sees them (R27): the inputs
that have reached the core and are not performed yet, the operand of the current command, and the
response of the last step. -/

namespace Sys2Proof.Machine

/-- The STATUS port (R27). Its fourth code, `11`, is never driven. -/
inductive Status where
  /-- `00` NONE: the command completed and returns no value. -/
  | none
  /-- `01` VALUE: RDATA holds the result. -/
  | value
  /-- `10` ILLEGAL: the command was refused (R152). -/
  | illegal
deriving DecidableEq, Repr

/-- A response: what STATUS and RDATA carry for one command (R27). -/
structure Response (w : Nat) where
  status : Status
  rdata  : BitVec w
deriving DecidableEq, Repr

/-- One thing that reaches the core from outside: a command on CMD with the value on OPND, or an
assertion of RST (R27, R170). -/
inductive Input (w : Nat) where
  | rst
  | command (cmd : CmdWord) (opnd : BitVec w)
deriving DecidableEq, Repr

/-- The block of a core whose accumulator is `w` bits wide. -/
structure Block (w : Nat) where
  /-- The configuration (R23). No command and no reset changes it. -/
  params      : Params w
  /-- TABLE (R22): the slots filled so far, slot 0 first. Complete once it holds `2^CHUNK` entries. -/
  table       : List (BitVec w)
  /-- ACC (R21): the one mutable register. -/
  acc         : BitVec w
  /-- What has arrived at the ports and is not performed yet, in the one total order of R51, first arrival first. -/
  inputs      : List (Input w)
  /-- OPND (R27) as the current command sees it. Only CRC.REV reads it. -/
  opnd        : BitVec w
  /-- STATUS and RDATA (R27) for the step just taken; `none` when it answered no command (R30). -/
  response    : Option (Response w)
  /-- The model's own mark (decision D4): some command so far was answered ILLEGAL. The hardware does not hold it. -/
  illegalSeen : Bool
deriving DecidableEq, Repr

/-- The state of the machine: the accumulator width and the block of that width. -/
structure State where
  width : Width
  block : Block width.bits
deriving DecidableEq, Repr

/-- Why a step stops with a fault. -/
inductive Fault where
  /-- A command that reads TABLE is run while TABLE is incomplete. Raised by `execUpdate` and `execTread`
  only; `step` never raises it, because it accepts no command before TABLE is complete (R177; item I1 of
  spec/93_implementation_defined.md treats this as stuck until built). Safe. -/
  | tableNotBuilt
deriving DecidableEq, Repr

/-- Why there is no meaning to give. -/
inductive Refusal where
  /-- An instruction whose meaning is not written yet, by its mnemonic. Raised by no arm of `exec`. Safe. -/
  | notModelled (mnemonic : String)
  /-- The configuration fails `config_ok`, so no block exists (R151, decision D17). Raised by
  `construct` only, never by `step`. Safe. -/
  | illegalConfiguration
deriving DecidableEq, Repr

/-- What a step or a meaning answers. -/
abbrev Answer := Host.Outcome State Fault Refusal

/-- What the core does next, as `Block.nextEvent` decides it. -/
inductive Event (w : Nat) where
  /-- RST is asserted; the rest of the inputs stays. -/
  | hardwareReset (rest : List (Input w))
  /-- TABLE is incomplete: the generator fills its next slot and no command is accepted (R177). -/
  | fillSlot
  /-- A command is accepted. -/
  | accept (cmd : CmdWord) (opnd : BitVec w) (rest : List (Input w))
  /-- Nothing has arrived. -/
  | idle
deriving DecidableEq, Repr

/-- The configuration a state runs. -/
def State.config (s : State) : Config := ⟨s.width, s.block.params⟩

/-- The block right after hardware reset (R30, R171): ACC is INIT_ADJ, TABLE is built, no response is pending.
Nothing has arrived at the ports. OPND is not given a reset value by the spec: DESIGN CHOICE 0
(assumption 4), and no command can observe it, since each command brings its own OPND. -/
def Block.reset {w : Nat} (p : Params w) : Block w where
  params := p
  table := configTable p
  acc := initAdj p
  inputs := []
  opnd := 0#w
  response := none
  illegalSeen := false

/-- The state right after hardware reset of a core with configuration `cfg`. -/
def State.resetOf (cfg : Config) : State := ⟨cfg.width, Block.reset cfg.params⟩

/-- The state right after reset, for the configuration of assumption 1. -/
def State.reset : State := State.resetOf Config.atReset

end Sys2Proof.Machine
end

