-- ==== Sys2Proof/Machine/Flags.lean ====
section
/-! DEFINITION. The CRC core has no status flags, condition codes or predicates (spec/10_state.md R25).
What stands in their place is the response of a command on STATUS and RDATA (R27). -/

namespace Sys2Proof.Machine

/-- The two bits STATUS drives (R27). -/
def Status.code : Status → BitVec 2
  | .none => 0b00#2
  | .value => 0b01#2
  | .illegal => 0b10#2

/-- `respond(s, d)`: drive STATUS = s and RDATA = d for the current command (R16, R27). -/
def Block.respond {w : Nat} (b : Block w) (s : Status) (d : BitVec w) : Block w :=
  { b with response := some ⟨s, d⟩ }

/-- The response of a command that returns no value: `respond(NONE, 0)` (R27). -/
def Block.respondNone {w : Nat} (b : Block w) : Block w := b.respond .none 0#w

/-- The response of a command that returns a value: `respond(VALUE, d)` (R27). -/
def Block.respondValue {w : Nat} (b : Block w) (d : BitVec w) : Block w := b.respond .value d

end Sys2Proof.Machine
end

