-- ==== Sys2Proof/Machine/Ops.lean ====
section
/-! DEFINITION. The named operations over the state: writing ACC, reading TABLE, filling one slot of it,
the one exception (IllegalCommand), hardware reset, and what the core does next.

The exception has no entry beyond its response and no return (spec/60_exceptions.md R156, R157). -/

namespace Sys2Proof.Machine

/-- Change the block of a state, at its own width. -/
def State.setBlock (s : State) (b : Block s.width.bits) : State := { s with block := b }

/-- `ACC <- v` (R16). -/
def Block.writeAcc {w : Nat} (b : Block w) (v : BitVec w) : Block w := { b with acc := v }

/-- TABLE holds all its entries, so commands may be accepted (R177): slots are filled in order (R94), so this is
whether the last one is filled. It is the hidden "table built" bit of R26. -/
def Block.tableReady {w : Nat} (b : Block w) : Bool := (b.table[b.params.chunk.entries - 1]?).isSome

/-- A complete TABLE has a slot for every CHUNK-bit index (R47, R115). -/
theorem Block.lt_length_of_tableReady {w : Nat} {b : Block w} (h : b.tableReady = true)
    (i : BitVec b.params.chunk.bits) : i.toNat < b.table.length := by
  have hlast : b.params.chunk.entries - 1 < b.table.length := by
    simpa [Block.tableReady] using h
  have hi : i.toNat < b.params.chunk.entries := i.isLt
  omega

/-- `TableRead` (R16) as a function of a CHUNK-bit index, once TABLE is complete. Every such index is in range
(R47, R115). -/
def Block.tableRead? {w : Nat} (b : Block w) : Option (BitVec b.params.chunk.bits → BitVec w) :=
  if h : b.tableReady = true then some fun i => b.table[i.toNat]'(Block.lt_length_of_tableReady h i) else none

/-- The generator fills the next free slot `i` with `generate_entry(POLY, CHUNK, DIR, i)` (R94, R177). One
slot a step is a DESIGN CHOICE (assumption 3). No command is answered. -/
def Block.fillSlot {w : Nat} (b : Block w) : Block w :=
  { b with
    table := b.table ++
      [generateEntry b.params.poly b.params.dir (BitVec.ofNat b.params.chunk.bits b.table.length)]
    response := none }

/-- `raise IllegalCommand(cmd)` (R152, R153): ACC and TABLE stay, the response is ILLEGAL with RDATA = 0, and
no word, address or cause is kept. The sticky mark is the model's own (decision D4, assumption 5). -/
def Block.raiseIllegalCommand {w : Nat} (b : Block w) : Block w :=
  { b.respond .illegal 0#w with illegalSeen := true }

/-- Hardware reset (R170): ACC <- INIT_ADJ and any response is abandoned; TABLE and the configuration stay. -/
def Block.hardwareReset {w : Nat} (b : Block w) (rest : List (Input w)) : Block w :=
  { b with acc := initAdj b.params, inputs := rest, response := none }

/-- Take the command at the head of the inputs: its operand stands on OPND, the later inputs wait (R48). -/
def Block.acceptCommand {w : Nat} (b : Block w) (opnd : BitVec w) (rest : List (Input w)) : Block w :=
  { b with inputs := rest, opnd := opnd }

/-- Nothing arrives: ACC is held (R163) and the ports carry no response (R30). -/
def Block.hold {w : Nat} (b : Block w) : Block w := { b with response := none }

/-- What the core does next. RST acts at once (R155, R170); no command is accepted before TABLE is complete
(R177); otherwise commands are taken one at a time in arrival order (R48). -/
def Block.nextEvent {w : Nat} (b : Block w) : Event w :=
  match b.inputs with
  | .rst :: rest => .hardwareReset rest
  | .command cmd opnd :: rest => if b.tableReady then .accept cmd opnd rest else .fillSlot
  | [] => if b.tableReady then .idle else .fillSlot

/-- Put a command before everything that waits at the ports, with TABLE complete, so that the next step accepts it.
A complete TABLE is left as it is. -/
def Block.presentCommand {w : Nat} (b : Block w) (cmd : CmdWord) : Block w :=
  { b with
    inputs := .command cmd b.opnd :: b.inputs
    table := if b.tableReady then b.table else configTable b.params }

end Sys2Proof.Machine
end

