-- ==== Sys2Proof/Machine/Operands.lean ====
section
/-! DEFINITION. How the operands of each command are assembled (spec/30_encoding.md R62). No command takes a
signed or scaled immediate. CRC.RESET and CRC.FINAL have no operand. -/

namespace Sys2Proof.Machine

/-- CRC.UPDATE's byte: IMM8 as it is. -/
def byteOperand (imm : Byte) : Byte := imm

/-- CRC.TREAD's index: IMM8 as an unsigned number below TABLE_ENTRIES, whose low CHUNK bits are then the whole index.
An index out of range is no operand; it is never wrapped (R45, R98). -/
def indexOperand (c : Chunk) (imm : Byte) : Option (BitVec c.bits) :=
  if imm.toNat < c.entries then some (imm.setWidth c.bits) else none

/-- CRC.REV's operand: OPND, taken whole. -/
def revOperand {w : Nat} (b : Block w) : BitVec w := b.opnd

end Sys2Proof.Machine
end

