-- ==== Sys2Proof/Machine/ChunkedUpdate.lean ====
section
/-! DEFINITION. The chunked accumulator update (spec/42_chunked_update.md R110 to R114) and CRC.UPDATE (R117).

A chunk and a table index are `BitVec c`, so every lookup is in range by its type (R115). The table is handed to
the update as the function that reads it. -/

namespace Sys2Proof.Machine

/-- Forward chunk `k` of a byte, most significant first: bits `7 - c*k` down to `8 - c*(k+1)` (R111). -/
def forwardChunk (c : Nat) (byte : Byte) (k : Nat) : BitVec c := byte.extractLsb' (8 - c * (k + 1)) c

/-- Reverse chunk `k` of a byte, least significant first: bits `c*k + c - 1` down to `c*k` (R113). -/
def reverseChunk (c : Nat) (byte : Byte) (k : Nat) : BitVec c := byte.extractLsb' (c * k) c

/-- The forward table index: the top `c` bits of the accumulator XOR the chunk (R112). -/
def forwardIndex {w c : Nat} (acc : BitVec w) (v : BitVec c) : BitVec c := (acc >>> (w - c)).setWidth c ^^^ v

/-- The reverse table index: the low `c` bits of the accumulator XOR the chunk (R113). -/
def reverseIndex {w c : Nat} (acc : BitVec w) (v : BitVec c) : BitVec c := acc.setWidth c ^^^ v

/-- Fold one chunk, forward (R112), with the width-equals-chunk case as the source gives it (R114). -/
def foldForward {w c : Nat} (T : BitVec c → BitVec w) (acc : BitVec w) (v : BitVec c) : BitVec w :=
  if w = c then T (forwardIndex acc v) else (acc <<< c) ^^^ T (forwardIndex acc v)

/-- Fold one chunk, reverse (R113), with the width-equals-chunk case (R114). -/
def foldReverse {w c : Nat} (T : BitVec c → BitVec w) (acc : BitVec w) (v : BitVec c) : BitVec w :=
  if w = c then T (reverseIndex acc v) else (acc >>> c) ^^^ T (reverseIndex acc v)

/-- `update_byte(acc, byte, T, c, dir)` (R110, R112, R113): the `8 / c` chunks one after another. -/
def updateByte {w c : Nat} (T : BitVec c → BitVec w) (dir : Dir) (acc : BitVec w) (byte : Byte) : BitVec w :=
  match dir with
  | .forward => (List.range (8 / c)).foldl (fun a k => foldForward T a (forwardChunk c byte k)) acc
  | .reverse => (List.range (8 / c)).foldl (fun a k => foldReverse T a (reverseChunk c byte k)) acc

/-- CRC.UPDATE (R117): `ACC <- update_byte(ACC, byte, TABLE, CHUNK, DIR); respond(NONE, 0)`, as one step (R119).
With TABLE incomplete there is nothing to read yet (R177). -/
def execUpdate (byte : Byte) (s : State) : Answer :=
  match s.block.tableRead? with
  | some T =>
    .next (s.setBlock ((s.block.writeAcc (updateByte T s.block.params.dir s.block.acc (byteOperand byte))).respondNone))
  | none => .fault .tableNotBuilt

end Sys2Proof.Machine
end

