-- ==== Sys2Proof/Machine/Engine.lean ====
section
/-! DEFINITION. Accumulator control (spec/43_engine.md): CRC.RESET and CRC.FINAL. No mode is stored (R28, R130,
conflict C3). -/

namespace Sys2Proof.Machine

/-- `ACC ^ XOROUT`: what finalize returns (R133). XOROUT is applied as given in both directions. -/
def finalize {w : Nat} (p : Params w) (acc : BitVec w) : BitVec w := acc ^^^ p.xorout

/-- CRC.RESET (R132): `ACC <- INIT_ADJ; respond(NONE, 0)`. -/
def execReset (s : State) : Answer :=
  .next (s.setBlock ((s.block.writeAcc (initAdj s.block.params)).respondNone))

/-- CRC.FINAL (R133): `respond(VALUE, ACC ^ XOROUT)`; ACC is not written. -/
def execFinal (s : State) : Answer :=
  .next (s.setBlock (s.block.respondValue (finalize s.block.params s.block.acc)))

end Sys2Proof.Machine
end

