-- ==== Sys2Proof/Machine/Reversal.lean ====
section
/-! DEFINITION. CRC.REV: reverse the bits of OPND (spec/40_bit_reversal.md R84). -/

namespace Sys2Proof.Machine

/-- CRC.REV (R84): `respond(VALUE, reverse_bits_W(OPND))`. ACC and TABLE are not changed. -/
def execRev (s : State) : Answer :=
  .next (s.setBlock (s.block.respondValue (reverseBits (revOperand s.block))))

end Sys2Proof.Machine
end

