-- ==== Sys2Proof/Machine/TableRead.lean ====
section
/-! DEFINITION. CRC.TREAD: read one lookup-table entry (spec/41_table_generator.md R98). -/

namespace Sys2Proof.Machine

/-- CRC.TREAD (R98): an index at or above TABLE_ENTRIES raises IllegalCommand; otherwise
`respond(VALUE, TableRead(i))`. ACC is not changed. With TABLE incomplete there is nothing to read yet (R177). -/
def execTread (index : Byte) (s : State) : Answer :=
  match indexOperand s.block.params.chunk index with
  | none => .next (s.setBlock s.block.raiseIllegalCommand)
  | some i =>
    match s.block.tableRead? with
    | some T => .next (s.setBlock (s.block.respondValue (T i)))
    | none => .fault .tableNotBuilt

end Sys2Proof.Machine
end

