-- ==== Sys2Proof/Machine/Dispatch.lean ====
section
/-! DEFINITION. One arm for each command of spec/opcode_table.json. -/

namespace Sys2Proof.Machine

def exec (i : Instr) (s : State) : Host.Outcome State Fault Refusal :=
  match i with
  | .reset => Sys2Proof.Machine.execReset s
  | .update byte => Sys2Proof.Machine.execUpdate byte s
  | .final => Sys2Proof.Machine.execFinal s
  | .tread index => Sys2Proof.Machine.execTread index s
  | .rev => Sys2Proof.Machine.execRev s

end Sys2Proof.Machine
end

