-- ==== Sys2Proof/Machine/Step.lean ====
section
/-! DEFINITION. One step of the core. It fetches nothing (spec/10_state.md R24): it performs what has arrived at
its ports, one input a step, each to its end (spec/20_memory.md R46, R48). -/

namespace Sys2Proof.Machine

/-- One atomic step (R180): a hardware reset, one slot of TABLE while it is being built, one command, or nothing. -/
def step (s : State) : Host.Outcome State Fault Refusal :=
  match s.block.nextEvent with
  | .hardwareReset rest => .next (s.setBlock (s.block.hardwareReset rest))
  | .fillSlot => .next (s.setBlock s.block.fillSlot)
  | .idle => .next (s.setBlock s.block.hold)
  | .accept cmd opnd rest =>
    match decode s.block.params.chunk cmd with
    | .command i => exec i (s.setBlock (s.block.acceptCommand opnd rest))
    | .illegal _ => .next (s.setBlock (s.block.acceptCommand opnd rest).raiseIllegalCommand)

/-- The state whose very next step performs the given command word: the word is presented on CMD before every
other input, with OPND as it stands, and TABLE is complete. It stands for the issuer sending that command
(assumption 2). -/
def State.withFetchWord (s : State) (nbits w : Nat) : State :=
  s.setBlock (s.block.presentCommand (tableWord nbits w))

end Sys2Proof.Machine
end

