-- ==== Sys2Proof/Machine/Assembly.lean ====
section
/-! DEFINITION. The command text of spec/30_encoding.md R68 and the pseudo-instructions of R69: from the
characters of a line to the inputs an issuer sends. It touches text only, not the machine (decision D19).

A line is a list of characters. Text the rules do not describe is refused (assumption 6). -/

namespace Sys2Proof.Machine

/-- The double quote, by its ASCII code. -/
def stringQuote : Char := Char.ofNat 0x22

/-- The single quote, by its ASCII code. -/
def charQuote : Char := Char.ofNat 0x27

/-- Blank space between the parts of a line. -/
def isBlank (ch : Char) : Bool := ch == ' ' || ch == '\t'

/-- What a line is cut into. -/
inductive Token where
  | word (chars : List Char)
  | chr (ch : Char)
  | str (chars : List Char)
  | comma
deriving DecidableEq, Repr

/-- Where the cutter stands; words and strings are gathered last character first. -/
inductive LexMode where
  | gap
  | inWord (gathered : List Char)
  | charOpen
  | charClose (ch : Char)
  | inString (gathered : List Char)
deriving DecidableEq, Repr

/-- Cut a line into tokens. A semicolon outside quotes starts a comment (R68). -/
def lex : LexMode → List Char → Option (List Token)
  | .gap, [] => some []
  | .inWord gathered, [] => some [.word gathered.reverse]
  | .charOpen, [] => none
  | .charClose _, [] => none
  | .inString _, [] => none
  | .gap, ch :: rest =>
    if ch == ';' then some []
    else if isBlank ch then lex .gap rest
    else if ch == ',' then (lex .gap rest).map (Token.comma :: ·)
    else if ch == charQuote then lex .charOpen rest
    else if ch == stringQuote then lex (.inString []) rest
    else lex (.inWord [ch]) rest
  | .inWord gathered, ch :: rest =>
    if ch == ';' then some [.word gathered.reverse]
    else if isBlank ch then (lex .gap rest).map (Token.word gathered.reverse :: ·)
    else if ch == ',' then (lex .gap rest).map fun ts => .word gathered.reverse :: .comma :: ts
    else lex (.inWord (ch :: gathered)) rest
  | .charOpen, ch :: rest => lex (.charClose ch) rest
  | .charClose held, ch :: rest =>
    if ch == charQuote then (lex .gap rest).map (Token.chr held :: ·) else none
  | .inString gathered, ch :: rest =>
    if ch == stringQuote then (lex .gap rest).map (Token.str gathered.reverse :: ·)
    else lex (.inString (ch :: gathered)) rest

/-- The value of a decimal digit. -/
def decimalDigit (ch : Char) : Option Nat :=
  if 0x30 ≤ ch.toNat ∧ ch.toNat ≤ 0x39 then some (ch.toNat - 0x30) else none

/-- The value of a hexadecimal digit, in either case. -/
def hexDigit (ch : Char) : Option Nat :=
  if 0x41 ≤ ch.toNat ∧ ch.toNat ≤ 0x46 then some (ch.toNat - 0x37)
  else if 0x61 ≤ ch.toNat ∧ ch.toNat ≤ 0x66 then some (ch.toNat - 0x57)
  else decimalDigit ch

/-- Read digits in a base, most significant first, onto a value read so far. -/
def readDigits (base : Nat) (digit : Char → Option Nat) : Nat → List Char → Option Nat
  | value, [] => some value
  | value, ch :: rest =>
    match digit ch with
    | some d => readDigits base digit (value * base + d) rest
    | none => none

/-- A decimal or `0x` hexadecimal literal (R68). -/
def readNumber : List Char → Option Nat
  | [] => none
  | ['0', 'x'] => none
  | '0' :: 'x' :: digits => readDigits 16 hexDigit 0 digits
  | digits => readDigits 10 decimalDigit 0 digits

/-- The ASCII code of a character, for the characters that have one (R68, item G1). -/
def asciiCode (ch : Char) : Option Nat := if ch.toNat < 0x80 then some ch.toNat else none

/-- A byte or index literal: decimal, hexadecimal or character (R68). -/
def readLiteral : Token → Option Nat
  | .word chars => readNumber chars
  | .chr ch => asciiCode ch
  | .str _ => none
  | .comma => none

/-- A W-bit value literal: decimal or hexadecimal (R68). -/
def readValue : Token → Option Nat
  | .word chars => readNumber chars
  | .chr _ => none
  | .str _ => none
  | .comma => none

/-- One core command as text gives it, its operand still unchecked (R68). -/
inductive AsmCommand where
  | reset
  | update (byte : Nat)
  | final
  | tread (index : Nat)
  | rev (value : Nat)
deriving DecidableEq, Repr

/-- One line: a core command (R68) or a pseudo-instruction (R69). -/
inductive AsmLine where
  | core (command : AsmCommand)
  | feed (bytes : List Nat)
  | string (codes : List Nat)
  | compute (codes : List Nat)
deriving DecidableEq, Repr

/-- Operands separated by commas, at least one (R69). -/
def readOperands : List Token → Option (List Nat)
  | [] => none
  | [t] => (readLiteral t).map fun n => [n]
  | t :: .comma :: rest =>
    match readLiteral t, readOperands rest with
    | some n, some ns => some (n :: ns)
    | _, _ => none
  | _ :: _ :: _ => none

/-- The codes of a string's characters, first to last (R69). -/
def readString : List Token → Option (List Nat)
  | [.str chars] => chars.mapM asciiCode
  | _ => none

/-- Read the operands of a mnemonic (R68, R69). Mnemonics are lower case. -/
def readMnemonic (mnemonic : List Char) (operands : List Token) : Option AsmLine :=
  if mnemonic = ['c', 'r', 'c', '.', 'r', 'e', 's', 'e', 't'] then
    if operands = [] then some (.core .reset) else none
  else if mnemonic = ['c', 'r', 'c', '.', 'f', 'i', 'n', 'a', 'l'] then
    if operands = [] then some (.core .final) else none
  else if mnemonic = ['c', 'r', 'c', '.', 'u', 'p', 'd', 'a', 't', 'e'] then
    match operands with
    | [t] => (readLiteral t).map fun n => .core (.update n)
    | _ => none
  else if mnemonic = ['c', 'r', 'c', '.', 't', 'r', 'e', 'a', 'd'] then
    match operands with
    | [t] => (readLiteral t).map fun n => .core (.tread n)
    | _ => none
  else if mnemonic = ['c', 'r', 'c', '.', 'r', 'e', 'v'] then
    match operands with
    | [t] => (readValue t).map fun n => .core (.rev n)
    | _ => none
  else if mnemonic = ['c', 'r', 'c', '.', 'f', 'e', 'e', 'd'] then (readOperands operands).map .feed
  else if mnemonic = ['c', 'r', 'c', '.', 's', 't', 'r', 'i', 'n', 'g'] then (readString operands).map .string
  else if mnemonic = ['c', 'r', 'c', '.', 'c', 'o', 'm', 'p', 'u', 't', 'e'] then (readString operands).map .compute
  else none

/-- Read a line: nothing (a blank line or a comment), or one command (R68). -/
def readLine (line : List Char) : Option (List AsmLine) :=
  match lex .gap line with
  | some [] => some []
  | some (.word mnemonic :: operands) => (readMnemonic mnemonic operands).map fun l => [l]
  | some _ => none
  | none => none

/-- The expansion of a line into core commands (R69). -/
def AsmLine.expand : AsmLine → List AsmCommand
  | .core command => [command]
  | .feed bytes => bytes.map .update
  | .string codes => codes.map .update
  | .compute codes => .reset :: (codes.map .update ++ [.final])

/-- The word and operand of a core command (R68), for a core of width `w` and table size `c`. An assembler
refuses a byte above 0xFF, an index at or above TABLE_ENTRIES, and a value of more than W bits.
OPND is ignored by every command but CRC.REV (decision D18); 0 is put there. -/
def AsmCommand.assemble (w : Nat) (c : Chunk) : AsmCommand → Option (Input w)
  | .reset => some (.command (encode .reset) 0#w)
  | .update byte => if byte ≤ 0xFF then some (.command (encode (.update (BitVec.ofNat 8 byte))) 0#w) else none
  | .final => some (.command (encode .final) 0#w)
  | .tread index =>
    if index < c.entries then some (.command (encode (.tread (BitVec.ofNat 8 index))) 0#w) else none
  | .rev value => if value < 2 ^ w then some (.command (encode .rev) (BitVec.ofNat w value)) else none

/-- The inputs one line stands for. -/
def assembleLine (w : Nat) (c : Chunk) (line : List Char) : Option (List (Input w)) :=
  match readLine line with
  | some lines => (lines.flatMap AsmLine.expand).mapM (AsmCommand.assemble w c)
  | none => none

/-- The inputs a text of several lines stands for, in order. -/
def assembleText (w : Nat) (c : Chunk) : List (List Char) → Option (List (Input w))
  | [] => some []
  | line :: rest =>
    match assembleLine w c line, assembleText w c rest with
    | some here, some later => some (here ++ later)
    | _, _ => none

end Sys2Proof.Machine
end

