-- ==== Sys2Proof/Machine/Construct.lean ====
section
/-! DEFINITION. Building a block from parameter values (spec/60_exceptions.md R151; the boot order of
spec/70_reset_and_hazards.md R174): the configuration is checked, TABLE is built, hardware reset is applied. -/

namespace Sys2Proof.Machine

/-- The accumulator width `W` names, if it is a legal one (R12). -/
def widthOf : Nat → Option Width
  | 8 => some .w8
  | 16 => some .w16
  | 32 => some .w32
  | 64 => some .w64
  | _ => none

/-- The table size `CHUNK` names, if it is a legal one (R12). -/
def chunkOf : Nat → Option Chunk
  | 2 => some .tiny
  | 4 => some .small
  | 8 => some .large
  | _ => none

/-- The direction a code of R23 names. -/
def dirOf : Nat → Option Dir
  | 0 => some .forward
  | 1 => some .reverse
  | _ => none

/-- The parameter values a configuration stands for. -/
def rawOf (cfg : Config) : RawConfig where
  w := cfg.width.bits
  poly := cfg.params.poly.toNat
  init := cfg.params.init.toNat
  xorout := cfg.params.xorout.toNat
  dir := cfg.params.dir.code
  chunk := cfg.params.chunk.bits

/-- The elaborator (R151): a configuration from parameter values that pass `config_ok`, nothing from others. -/
def elaborate (r : RawConfig) : Option Config :=
  if r.configOk then
    match widthOf r.w, dirOf r.dir, chunkOf r.chunk with
    | some width, some dir, some chunk =>
      some ⟨width, ⟨BitVec.ofNat _ r.poly, BitVec.ofNat _ r.init, BitVec.ofNat _ r.xorout, dir, chunk⟩⟩
    | _, _, _ => none
  else none

/-- Build a block and apply hardware reset (R174). An illegal configuration gives no block (decision D17). -/
def construct (r : RawConfig) : Answer :=
  match elaborate r with
  | some cfg => .next (State.resetOf cfg)
  | none => .refused .illegalConfiguration

/-- The state right after hardware reset of an implementation that fills TABLE at run time (R96), with `n` slots
filled so far. With every slot filled it is `State.resetOf cfg`. -/
def State.resetFilling (cfg : Config) (n : Nat) : State :=
  ⟨cfg.width, { Block.reset cfg.params with table := (configTable cfg.params).take n }⟩

end Sys2Proof.Machine
end

