-- ==== Sys2Proof/Machine/Issuers.lean ====
section
/-! DEFINITION. What stands outside one core: several issuers that share it (spec/20_memory.md R51), the checksum an
issuer asks it for (spec/43_engine.md R135), and several cores side by side (spec/60_exceptions.md R161). -/

namespace Sys2Proof.Machine

/-- The one total order at CMD of several issuers' streams (R51), as a schedule says whose turn it is. A turn of
an issuer that has nothing left, or of none, is passed over. Every interleaving is the value of some
schedule, and the core admits them all (decision D16). -/
def interleave {α : Type} : List Nat → List (List α) → List α
  | [], _ => []
  | k :: schedule, streams =>
    match streams[k]? with
    | some (x :: later) => x :: interleave schedule (streams.set k later)
    | _ => interleave schedule streams

/-- The inputs of a command stream: each command's own word, with whatever OPND the issuer sends beside it (R27, decision
D18). -/
def commandInputs {w : Nat} (sent : List (Instr × BitVec w)) : List (Input w) :=
  sent.map fun c => .command (encode c.1) c.2

/-- One CRC.UPDATE per byte, in order (R41, R42), each with any OPND. -/
def updateCommands {w : Nat} (message : List (Byte × BitVec w)) : List (Instr × BitVec w) :=
  message.map fun m => (.update m.1, m.2)

/-- The command sequence of R135, each command with any OPND: CRC.RESET, one CRC.UPDATE per byte, CRC.FINAL. -/
def checksumCommands {w : Nat} (x : BitVec w) (message : List (Byte × BitVec w)) (y : BitVec w) : List (Instr × BitVec w) :=
  (.reset, x) :: (updateCommands message ++ [(.final, y)])

/-- ACC after one well-formed command, from the ACC before it: CRC.RESET and CRC.UPDATE write it, the others leave it
(R21). -/
def accAfter {w : Nat} (p : Params w) (acc : BitVec w) : Instr → BitVec w
  | .reset => initAdj p
  | .update byte => updateByte (entryOf p) p.dir acc byte
  | .final => acc
  | .tread _ => acc
  | .rev => acc

/-- `fold(update_byte(·, mi, TABLE, CHUNK, DIR), acc, m)` (R135). -/
def foldMessage {w : Nat} (p : Params w) (acc : BitVec w) (message : List Byte) : BitVec w :=
  message.foldl (updateByte (entryOf p) p.dir) acc

/-- `crc(m)`: the checksum of a message (R135). -/
def checksum {w : Nat} (p : Params w) (message : List Byte) : BitVec w :=
  finalize p (foldMessage p (initAdj p) message)

/-- Any number of cores, each with its own configuration, ACC and ports (R161). Cores of one configuration
may share a TABLE; sharing cannot be observed (R29, R97), so each holds its own copy. -/
structure System where
  cores : List State
deriving DecidableEq, Repr

/-- Core `k` takes a step; the others stand (R49). No core `k`, or a core that stops: no system step. -/
def System.stepCore (sys : System) (k : Nat) : Option System :=
  match sys.cores[k]? with
  | some s =>
    match step s with
    | .next s' => some ⟨sys.cores.set k s'⟩
    | .fault _ => none
    | .refused _ => none
  | none => none

end Sys2Proof.Machine
end

