-- ==== Sys2Proof/Safety.lean ====
section
/-! DEFINITION. What counts as a good state and a good run, in the terms claims use. -/

namespace Sys2Proof.Machine

/-- TABLE holds `build(POLY, CHUNK, DIR)`, whole (R22, R174). -/
abbrev Block.TableBuilt {w : Nat} (b : Block w) : Prop := b.table = configTable b.params

/-- Every slot filled so far holds its own entry, and there are no slots beyond TABLE_ENTRIES (R94). This is
what holds while a run-time builder is at work (R177). -/
abbrev Block.TableSound {w : Nat} (b : Block w) : Prop := b.table <+: configTable b.params

/-- RDATA is all zeros unless STATUS is VALUE (R27). -/
abbrev Response.Proper {w : Nat} (r : Response w) : Prop := r.status = Status.value ∨ r.rdata = 0#w

/-- The ports carry no response, or a proper one (R27). -/
abbrev Block.ResponseProper {w : Nat} (b : Block w) : Prop := ∀ r ∈ b.response, r.Proper

/-- The state is one the core can be in after its first hardware reset: what every step keeps. -/
abbrev State.Sound (s : State) : Prop := s.block.TableSound ∧ s.block.ResponseProper

/-- An input that no step answers ILLEGAL: a hardware reset, or a word that decodes to a command (R64). The premise of
claims that exclude illegal commands (decision D4). -/
def Input.legal {w : Nat} (c : Chunk) : Input w → Bool
  | .rst => true
  | .command cmd _ => (decode c cmd).instr?.isSome

/-- A safe run so far: no command was answered ILLEGAL (decision D4). -/
abbrev State.Safe (s : State) : Prop := s.block.illegalSeen = false

/-- The state after `k` steps. -/
abbrev run (k : Nat) (s : State) : Answer := Host.Core.run Sys2Proof.core k s

/-- One bit of a message folded in with no table, most significant bit first: the shift register that R91 simulates,
with the message bit XORed into the bit that is shifted out. -/
def serialForward {w : Nat} (poly acc : BitVec w) (bit : Bool) : BitVec w :=
  if acc.msb ^^ bit then (acc <<< 1) ^^^ poly else acc <<< 1

/-- One bit folded in with no table, least significant bit first (R92). -/
def serialReverse {w : Nat} (poly acc : BitVec w) (bit : Bool) : BitVec w :=
  if acc.getLsbD 0 ^^ bit then (acc >>> 1) ^^^ reverseBits poly else acc >>> 1

/-- A byte folded in bit by bit: the bit-serial evaluation that spec/95_test_vectors.md checks its values against. -/
def serialByte {w : Nat} (poly : BitVec w) (dir : Dir) (acc : BitVec w) (byte : Byte) : BitVec w :=
  match dir with
  | .forward => [7, 6, 5, 4, 3, 2, 1, 0].foldl (fun a i => serialForward poly a (byte.getLsbD i)) acc
  | .reverse => [0, 1, 2, 3, 4, 5, 6, 7].foldl (fun a i => serialReverse poly a (byte.getLsbD i)) acc

end Sys2Proof.Machine
end

