-- ==== Sys2Proof/Certificates/Slice0/Obligations.lean ====
section
/-! DEFINITION. The statements about the CRC core that the provers are asked for. Each formalises a numbered rule of spec/,
or rests on the sections its entry of OBLIGATIONS.json cites. A statement about every block `b` of every width `wd`
covers every configuration, since the configuration is part of the block. -/

open Sys2Proof Sys2Proof.Machine

/-! ### Encoding -/

/-- R63, R65: words written out bit by bit decode to the command they stand for, or are illegal. -/
def Obligations.WrittenOutWordsDecode : Prop :=
  decode .tiny 0b0001000000000000#16 = .command .reset ∧
  decode .small 0b0010000000110001#16 = .command (.update 0x31#8) ∧
  decode .large 0b0011000000000000#16 = .command .final ∧
  decode .tiny 0b0100000000000011#16 = .command (.tread 0x03#8) ∧
  decode .small 0b0100000000001111#16 = .command (.tread 0x0F#8) ∧
  decode .large 0b0100000011111111#16 = .command (.tread 0xFF#8) ∧
  decode .tiny 0b0101000000000000#16 = .command .rev ∧
  decode .tiny 0b0100000000000100#16 = .illegal .indexOutOfRange ∧
  decode .small 0b0100000000010000#16 = .illegal .indexOutOfRange ∧
  decode .large 0b0000000000000000#16 = .illegal .opIllegal ∧
  decode .large 0b0001000000000001#16 = .illegal .imm8NotZero ∧
  decode .large 0b0010000100110100#16 = .illegal .rsvNotZero

/-- R63: for every word and table size, the decoder gives a command exactly when the word matches that command's row of
the opcode table, with the operand in the row's free bits; a word with OP = 0x0 or 0x6 to 0xF is illegal. -/
def Obligations.DecoderAgreesWithOpcodeTable : Prop :=
  ∀ (c : Chunk) (cmd : CmdWord),
    (decode c cmd = .command .reset ↔ cmd &&& 0xFFFF#16 = 0x1000#16) ∧
    (∀ byte, decode c cmd = .command (.update byte) ↔
      cmd &&& 0xFF00#16 = 0x2000#16 ∧ byte = cmd.setWidth 8) ∧
    (decode c cmd = .command .final ↔ cmd &&& 0xFFFF#16 = 0x3000#16) ∧
    (∀ index, decode c cmd = .command (.tread index) ↔
      cmd &&& treadMask c = 0x4000#16 ∧ index = cmd.setWidth 8) ∧
    (decode c cmd = .command .rev ↔ cmd &&& 0xFFFF#16 = 0x5000#16) ∧
    (cmd.toNat < 0x1000 ∨ 0x6000 ≤ cmd.toNat → ∃ why, decode c cmd = .illegal why)

/-- R63, R64: decoding the word of a well-formed command gives the command back, for every operand value. -/
def Obligations.DecodeEncodeRoundTrip : Prop :=
  ∀ (c : Chunk) (i : Instr), i.wf c = true → decode c (encode i) = .command i

/-- R64: a word that decodes to a command is that command's own word, and the command is well formed. So no
two words are the same command, and no legal word has an ignored bit. -/
def Obligations.LegalWordIsItsCommandsEncoding : Prop :=
  ∀ (c : Chunk) (cmd : CmdWord) (i : Instr), decode c cmd = .command i → encode i = cmd ∧ i.wf c = true

/-- R64: the rows of the opcode table of one table size never overlap, and a word is legal exactly when it matches one. -/
def Obligations.OpcodeRowsPartitionTheLegalWords : Prop :=
  ∀ (c : Chunk) (cmd : CmdWord),
    (opcodeRows c).countP (fun row => row.matches cmd) = if (decode c cmd).instr?.isSome then 1 else 0

/-- Which words are illegal (30_encoding.md section 4), and that each is performed as IllegalCommand: ACC, TABLE and the
configuration stay, and the response is ILLEGAL with RDATA = 0. The model's own: the word leaves the list of inputs
(assumption 2), its operand stands on OPND (assumption 4), and the mark `illegalSeen` is raised (assumption 5). -/
def Obligations.IllegalWordsAreTheListedOnes : Prop :=
  (∀ (c : Chunk) (cmd : CmdWord),
    (∃ why, decode c cmd = .illegal why) ↔
      (opField cmd = 0x0#4 ∨ 0x6 ≤ (opField cmd).toNat ∨ rsvField cmd ≠ 0x0#4 ∨
        (imm8Field cmd ≠ 0x00#8 ∧ (opField cmd = 0x1#4 ∨ opField cmd = 0x3#4 ∨ opField cmd = 0x5#4)) ∨
        (opField cmd = 0x4#4 ∧ c.entries ≤ (imm8Field cmd).toNat))) ∧
  (∀ (wd : Width) (b : Block wd.bits) (cmd : CmdWord) (x : BitVec wd.bits) (rest : List (Input wd.bits)) (why : IllegalWord),
    b.tableReady = true → b.inputs = .command cmd x :: rest → decode b.params.chunk cmd = .illegal why →
    step ⟨wd, b⟩ = .next ⟨wd, { b with
      inputs := rest, opnd := x, response := some ⟨.illegal, 0#wd.bits⟩, illegalSeen := true }⟩)

/-! ### The step -/

/-- R48, R64: when a command has arrived, TABLE is complete and the word decodes to `i`, the step is `exec i`. The model's
own: the command leaves the list of inputs (assumption 2) and its operand stands on OPND (assumption 4). -/
def Obligations.StepRunsTheDecodedCommand : Prop :=
  ∀ (wd : Width) (b : Block wd.bits) (cmd : CmdWord) (x : BitVec wd.bits) (rest : List (Input wd.bits)) (i : Instr),
    b.tableReady = true → b.inputs = .command cmd x :: rest → decode b.params.chunk cmd = .command i →
    step ⟨wd, b⟩ = exec i ⟨wd, { b with inputs := rest, opnd := x }⟩

/-- The model's choice: with nothing at the ports and TABLE complete a step is an idle step (assumption 2) that leaves no
response (assumption 8). That it holds everything else rests on R163, which says ACC is held while powered and not reset. -/
def Obligations.IdleCoreHoldsItsState : Prop :=
  ∀ (wd : Width) (b : Block wd.bits), b.tableReady = true → b.inputs = [] →
    step ⟨wd, b⟩ = .next ⟨wd, { b with response := none }⟩

/-- Any number of illegal words in a row, with any operands, is answered ILLEGAL one by one, with RDATA = 0: ACC, TABLE, the
configuration and the later inputs are as if they had not been sent, and the core goes on (60_exceptions.md section 1). The
model's own: the list of inputs (assumption 2), the OPND left standing (assumption 4) and the raised mark `illegalSeen`
(assumption 5, decision D4). -/
def Obligations.IllegalWordsInARowChangeNothing : Prop :=
  ∀ (wd : Width) (b : Block wd.bits) (sent : List (CmdWord × BitVec wd.bits)) (rest : List (Input wd.bits)),
    b.tableReady = true → sent ≠ [] → (∀ c ∈ sent, ∃ why, decode b.params.chunk c.1 = .illegal why) →
    b.inputs = sent.map (fun c => Input.command c.1 c.2) ++ rest →
    ∃ x : BitVec wd.bits, run sent.length ⟨wd, b⟩ = .next ⟨wd, { b with
      inputs := rest, opnd := x, response := some ⟨.illegal, 0#wd.bits⟩, illegalSeen := true }⟩

/-- R48: an input is performed whole and exactly one a step: the next state has all the inputs still waiting, or all but the
first. With TABLE complete it is all but the first. The list of inputs is the model's own (assumption 2). -/
def Obligations.InputsAreTakenOneAtATimeInOrder : Prop :=
  ∀ (wd : Width) (b : Block wd.bits), ∃ b' : Block wd.bits,
    step ⟨wd, b⟩ = .next ⟨wd, b'⟩ ∧
    (b'.inputs = b.inputs ∨ ∃ x, b.inputs = x :: b'.inputs) ∧
    (b.tableReady = true → b'.inputs = b.inputs.tail)

/-- R150, R182: from every state every number of steps answers a next state: the core never stops, blocks or hangs. -/
def Obligations.CoreNeverStops : Prop :=
  ∀ (k : Nat) (s : State), ∃ t, run k s = .next t

/-! ### Bit reversal -/

/-- R80: bit `i` of the reversal is bit `W-1-i` of the operand. -/
def Obligations.ReverseBitsMirrorsEveryPosition : Prop :=
  ∀ (wd : Width) (x : BitVec wd.bits) (i : Nat), i < wd.bits →
    (reverseBits x).getLsbD i = x.getLsbD (wd.bits - 1 - i)

/-- R82: the laws of bit reversal: involution, the single-bit mapping, XOR, zero and all ones. -/
def Obligations.ReverseBitsLaws : Prop :=
  ∀ (wd : Width),
    (∀ x : BitVec wd.bits, reverseBits (reverseBits x) = x) ∧
    (∀ i : Nat, i < wd.bits → reverseBits (1#wd.bits <<< i) = 1#wd.bits <<< (wd.bits - 1 - i)) ∧
    (∀ x y : BitVec wd.bits, reverseBits (x ^^^ y) = reverseBits x ^^^ reverseBits y) ∧
    reverseBits (0#wd.bits) = 0#wd.bits ∧
    reverseBits (BitVec.ofNat wd.bits wd.mask) = BitVec.ofNat wd.bits wd.mask

/-- R84: CRC.REV answers VALUE with the reversal of OPND and changes nothing else; its word is 0x5000, and every other
word with OP = 0x5 is illegal; with the rule's corner cases and worked examples. -/
def Obligations.RevRespondsWithReversedOperand : Prop :=
  (∀ (wd : Width) (b : Block wd.bits),
    exec .rev ⟨wd, b⟩ = .next ⟨wd, { b with response := some ⟨.value, reverseBits b.opnd⟩ }⟩) ∧
  (∀ (c : Chunk) (cmd : CmdWord), opField cmd = 0x5#4 →
    (cmd = 0x5000#16 ∧ decode c cmd = .command .rev) ∨
    (cmd ≠ 0x5000#16 ∧ ∃ why, decode c cmd = .illegal why)) ∧
  (∀ wd : Width, reverseBits (0#wd.bits) = 0#wd.bits ∧
    reverseBits (BitVec.ofNat wd.bits wd.mask) = BitVec.ofNat wd.bits wd.mask ∧
    (∀ x : BitVec wd.bits, reverseBits (reverseBits x) = x)) ∧
  reverseBits 0x81#8 = 0x81#8 ∧
  reverseBits 0x04C11DB7#32 = 0xEDB88320#32 ∧ reverseBits 0x1021#16 = 0x8408#16

/-! ### Table generator and table -/

/-- R91, conflict C2, in the arithmetic of R15: one forward round tests the top bit and then shifts left modulo 2^W, with the
bit shifted out lost. -/
def Obligations.ForwardRoundIsAShift : Prop :=
  ∀ (wd : Width) (poly r : BitVec wd.bits),
    (forwardRound poly r).toNat =
      if 2 ^ (wd.bits - 1) ≤ r.toNat then ((r.toNat * 2) % 2 ^ wd.bits) ^^^ poly.toNat else r.toNat * 2

/-- R92, conflict C2, in the arithmetic of R15: one reverse round tests the low bit and then halves, with the bit
shifted out lost. -/
def Obligations.ReverseRoundIsAShift : Prop :=
  ∀ (wd : Width) (p r : BitVec wd.bits),
    (reverseRound p r).toNat = if r.toNat % 2 = 1 then (r.toNat / 2) ^^^ p.toNat else r.toNat / 2

/-- R93: the six laws of the generator. -/
def Obligations.GeneratorLaws : Prop :=
  ∀ (wd : Width) (c : Chunk) (poly : BitVec wd.bits),
    (∀ dir : Dir, generateEntry poly dir (0#c.bits) = 0#wd.bits) ∧
    generateEntry poly .forward (1#c.bits) = poly ∧
    generateEntry poly .reverse (BitVec.ofNat c.bits (2 ^ (c.bits - 1))) = reverseBits poly ∧
    (∀ (dir : Dir) (i j : BitVec c.bits),
      generateEntry poly dir (i ^^^ j) = generateEntry poly dir i ^^^ generateEntry poly dir j) ∧
    (∀ i : BitVec c.bits,
      generateEntry poly .reverse i = reverseBits (generateEntry poly .forward (reverseBits i))) ∧
    (∀ (dir : Dir) (i : BitVec c.bits), generateEntry (0#wd.bits) dir i = 0#wd.bits)

/-- R94: the built table has 2^CHUNK slots, slot `i` holds `generate_entry(POLY, CHUNK, DIR, i)`, TABLE after reset is
that table, and INIT and XOROUT play no part in it. -/
def Obligations.TableHoldsTheGeneratedEntries : Prop :=
  ∀ (wd : Width) (p : Params wd.bits),
    (configTable p).length = 2 ^ p.chunk.bits ∧
    (∀ i : BitVec p.chunk.bits, (configTable p)[i.toNat]? = some (generateEntry p.poly p.dir i)) ∧
    (∃ b : Block wd.bits, State.resetOf ⟨wd, p⟩ = ⟨wd, b⟩ ∧ b.table = configTable p) ∧
    (∀ init xorout : BitVec wd.bits, configTable { p with init := init, xorout := xorout } = configTable p)

/-- R95: once TABLE is complete no step changes it, whatever arrives; and a command is only ever accepted with
TABLE whole. -/
def Obligations.CompletedTableIsNeverChanged : Prop :=
  (∀ (wd : Width) (b b' : Block wd.bits), b.tableReady = true → step ⟨wd, b⟩ = .next ⟨wd, b'⟩ → b'.table = b.table) ∧
  (∀ (wd : Width) (b : Block wd.bits) (cmd : CmdWord) (x : BitVec wd.bits) (rest : List (Input wd.bits)),
    b.TableSound → b.nextEvent = .accept cmd x rest → b.TableBuilt)

/-- R177: while TABLE is incomplete and RST is not asserted, a step fills the next slot and accepts no command: the inputs wait
and ACC stays. One slot a step (assumption 3), the list of inputs (assumption 2) and the empty response (assumption 8) are
the model's own. -/
def Obligations.CommandsWaitWhileTableIsBuilt : Prop :=
  ∀ (wd : Width) (b : Block wd.bits), b.tableReady = false → (∀ rest, b.inputs ≠ .rst :: rest) →
    step ⟨wd, b⟩ = .next ⟨wd, { b with
      table := b.table ++ [entryOf b.params (BitVec.ofNat b.params.chunk.bits b.table.length)], response := none }⟩

/-- R177, R182: the wait ends. From a table filled in part, with RST not asserted, after as many steps as there are slots left
TABLE is whole and every input still waits. One slot a step (assumption 3) and the empty response (assumption 8) are the
model's own. -/
def Obligations.TableIsWholeAfterItsRemainingSlots : Prop :=
  ∀ (wd : Width) (b : Block wd.bits), b.TableSound → b.tableReady = false → (∀ rest, b.inputs ≠ .rst :: rest) →
    run (b.params.chunk.entries - b.table.length) ⟨wd, b⟩ =
      .next ⟨wd, { b with table := configTable b.params, response := none }⟩

/-- CRC.TREAD with an index below TABLE_ENTRIES answers VALUE with that entry and changes nothing else; an index at or above it
is IllegalCommand and never wraps; its words are 0x4000 | i for those indexes, and every other word with OP = 0x4 is illegal;
with the corner cases and worked examples (41_table_generator.md section 3). The mark `illegalSeen` that an index out of
range raises is the model's own (assumption 5). -/
def Obligations.TreadRespondsWithTheEntry : Prop :=
  (∀ (wd : Width) (b : Block wd.bits) (index : Byte), b.TableBuilt → index.toNat < b.params.chunk.entries →
    exec (.tread index) ⟨wd, b⟩ = .next ⟨wd, { b with
      response := some ⟨.value, generateEntry b.params.poly b.params.dir (index.setWidth b.params.chunk.bits)⟩ }⟩) ∧
  (∀ (wd : Width) (b : Block wd.bits) (index : Byte), b.params.chunk.entries ≤ index.toNat →
    exec (.tread index) ⟨wd, b⟩ = .next ⟨wd, { b with
      response := some ⟨.illegal, 0#wd.bits⟩, illegalSeen := true }⟩) ∧
  (∀ (c : Chunk) (cmd : CmdWord), opField cmd = 0x4#4 →
    (∃ index : Byte, index.toNat < c.entries ∧ cmd = 0x4000#16 ||| index.setWidth 16 ∧
      decode c cmd = .command (.tread index)) ∨
    ((rsvField cmd ≠ 0x0#4 ∨ c.entries ≤ (imm8Field cmd).toNat) ∧ ∃ why, decode c cmd = .illegal why)) ∧
  (∀ index : Byte, index.toNat < Chunk.large.entries) ∧
  (∀ (wd : Width) (p : Params wd.bits), entryOf p (0#p.chunk.bits) = 0#wd.bits ∧
    (p.dir = .forward → entryOf p (1#p.chunk.bits) = p.poly) ∧
    (p.dir = .reverse → entryOf p (BitVec.ofNat p.chunk.bits (2 ^ (p.chunk.bits - 1))) = reverseBits p.poly)) ∧
  generateEntry 0x04C11DB7#32 .reverse 0x01#8 = 0x77073096#32 ∧ generateEntry 0x04C11DB7#32 .reverse 0x1#4 = 0x1DB71064#32

/-! ### Chunked update -/

/-- R43: forward takes the chunks of a byte most significant first, in the bit ranges the rule lists; reverse takes the
same chunks in the opposite order; with CHUNK = 8 the whole byte is one chunk. -/
def Obligations.ChunkOrderFollowsDirection : Prop :=
  ∀ byte : Byte,
    (List.range Chunk.tiny.count).map (forwardChunk 2 byte) =
      [byte.extractLsb' 6 2, byte.extractLsb' 4 2, byte.extractLsb' 2 2, byte.extractLsb' 0 2] ∧
    (List.range Chunk.small.count).map (forwardChunk 4 byte) = [byte.extractLsb' 4 4, byte.extractLsb' 0 4] ∧
    (List.range Chunk.large.count).map (forwardChunk 8 byte) = [byte] ∧
    (∀ c : Chunk, (List.range c.count).map (reverseChunk c.bits byte) =
      ((List.range c.count).map (forwardChunk c.bits byte)).reverse)

/-- R112, in the arithmetic of R15: the forward index is the top CHUNK bits of ACC XOR the chunk, and ACC is shifted left modulo
2^W before the entry is XORed in. -/
def Obligations.ForwardStepArithmetic : Prop :=
  ∀ (wd : Width) (c : Chunk) (T : BitVec c.bits → BitVec wd.bits) (acc : BitVec wd.bits) (v : BitVec c.bits),
    (forwardIndex acc v).toNat = (acc.toNat / 2 ^ (wd.bits - c.bits)) ^^^ v.toNat ∧
    (foldForward T acc v).toNat =
      if wd.bits = c.bits then (T (forwardIndex acc v)).toNat
      else ((acc.toNat * 2 ^ c.bits) % 2 ^ wd.bits) ^^^ (T (forwardIndex acc v)).toNat

/-- R113, in the arithmetic of R15: the reverse index is the low CHUNK bits of ACC XOR the chunk, and ACC is shifted right
before the entry is XORed in. -/
def Obligations.ReverseStepArithmetic : Prop :=
  ∀ (wd : Width) (c : Chunk) (T : BitVec c.bits → BitVec wd.bits) (acc : BitVec wd.bits) (v : BitVec c.bits),
    (reverseIndex acc v).toNat = (acc.toNat % 2 ^ c.bits) ^^^ v.toNat ∧
    (foldReverse T acc v).toNat =
      if wd.bits = c.bits then (T (reverseIndex acc v)).toNat
      else (acc.toNat / 2 ^ c.bits) ^^^ (T (reverseIndex acc v)).toNat

/-- R114: W = CHUNK happens only for W = 8 with CHUNK = 8; there the new accumulator is the table entry, and the general formula
gives the same value in every configuration. -/
def Obligations.WidthEqualsChunkCaseAgrees : Prop :=
  (∀ (wd : Width) (c : Chunk), wd.bits = c.bits ↔ wd = .w8 ∧ c = .large) ∧
  (∀ (T : BitVec 8 → BitVec 8) (acc : BitVec 8) (v : BitVec 8),
    foldForward T acc v = T (forwardIndex acc v) ∧ foldReverse T acc v = T (reverseIndex acc v)) ∧
  (∀ (wd : Width) (c : Chunk) (T : BitVec c.bits → BitVec wd.bits) (acc : BitVec wd.bits) (v : BitVec c.bits),
    foldForward T acc v = (acc <<< c.bits) ^^^ T (forwardIndex acc v) ∧
    foldReverse T acc v = (acc >>> c.bits) ^^^ T (reverseIndex acc v))

/-- R117: CRC.UPDATE folds its byte into ACC through TABLE, answers NONE, and changes nothing else, for every byte; its
words are 0x2000 | byte, and every other word with OP = 0x2 is illegal; zero ACC and a zero byte stay zero. -/
def Obligations.UpdateFoldsTheByteIntoAcc : Prop :=
  (∀ (wd : Width) (b : Block wd.bits) (byte : Byte), b.TableBuilt →
    exec (.update byte) ⟨wd, b⟩ = .next ⟨wd, { b with
      acc := updateByte (entryOf b.params) b.params.dir b.acc byte, response := some ⟨.none, 0#wd.bits⟩ }⟩) ∧
  (∀ (c : Chunk) (cmd : CmdWord), opField cmd = 0x2#4 →
    (∃ byte : Byte, cmd = 0x2000#16 ||| byte.setWidth 16 ∧ decode c cmd = .command (.update byte)) ∨
    (rsvField cmd ≠ 0x0#4 ∧ ∃ why, decode c cmd = .illegal why)) ∧
  (∀ (wd : Width) (p : Params wd.bits), updateByte (entryOf p) p.dir (0#wd.bits) 0x00#8 = 0#wd.bits)

/-- Against a corner case R117 lists (a zero byte "still changes ACC whenever ACC has a set bit in the chunks it shifts
out"): by the rule's own pseudocode it need not, as with W = 8 and POLY = 0x01 (assumption 7); and it does in the rule's
vector (W = 16, POLY = 0x1021, ACC = 0x8000). For every table size. -/
def Obligations.ZeroByteNeedNotChangeAcc : Prop :=
  ∀ c : Chunk,
    updateByte (generateEntry 0x01#8 .forward : BitVec c.bits → BitVec 8) .forward 0x80#8 0x00#8 = 0x80#8 ∧
    updateByte (generateEntry 0x1021#16 .forward : BitVec c.bits → BitVec 16) .forward 0x8000#16 0x00#8 = 0x9188#16

/-- Item I1 of spec/93_implementation_defined.md, R177: a command that reads TABLE before it is complete is stuck. The fault is
the model's own form of it (assumption 12); no step gets there. -/
def Obligations.TableReadersAreStuckBeforeTheTableIsBuilt : Prop :=
  ∀ (wd : Width) (b : Block wd.bits), b.tableReady = false →
    (∀ byte, exec (.update byte) ⟨wd, b⟩ = .fault .tableNotBuilt) ∧
    (∀ index : Byte, index.toNat < b.params.chunk.entries →
      exec (.tread index) ⟨wd, b⟩ = .fault .tableNotBuilt)

/-- The update is linear over XOR in ACC and byte together (derived from R93 law 4 and R112, R113). -/
def Obligations.UpdateIsLinear : Prop :=
  ∀ (wd : Width) (p : Params wd.bits) (acc acc' : BitVec wd.bits) (byte byte' : Byte),
    updateByte (entryOf p) p.dir (acc ^^^ acc') (byte ^^^ byte') =
      updateByte (entryOf p) p.dir acc byte ^^^ updateByte (entryOf p) p.dir acc' byte'

/-- The chunked, table-driven update equals the shift register run bit by bit, for every configuration: what
spec/95_test_vectors.md checked on its values, stated for all. -/
def Obligations.ChunkedUpdateIsTheBitSerialUpdate : Prop :=
  ∀ (wd : Width) (p : Params wd.bits) (acc : BitVec wd.bits) (byte : Byte),
    updateByte (entryOf p) p.dir acc byte = serialByte p.poly p.dir acc byte

/-- R116: the value of ACC after any sequence of updates, each single update, and the checksum do not depend on CHUNK. -/
def Obligations.TableSizeDoesNotChangeTheResult : Prop :=
  ∀ (wd : Width) (p : Params wd.bits) (c : Chunk) (acc : BitVec wd.bits),
    (∀ byte : Byte,
      updateByte (entryOf { p with chunk := c }) p.dir acc byte = updateByte (entryOf p) p.dir acc byte) ∧
    (∀ message : List Byte,
      foldMessage { p with chunk := c } acc message = foldMessage p acc message ∧
      finalize { p with chunk := c } (foldMessage { p with chunk := c } acc message) =
        finalize p (foldMessage p acc message))

/-! ### Accumulator control -/

/-- R132: CRC.RESET sets ACC to INIT_ADJ, whatever it was, answers NONE, and changes nothing else; its word is 0x1000, and every
other word with OP = 0x1 is illegal; a palindromic INIT is its own INIT_ADJ, and the rule's worked example. -/
def Obligations.ResetRestoresTheInitialValue : Prop :=
  (∀ (wd : Width) (b : Block wd.bits),
    exec .reset ⟨wd, b⟩ = .next ⟨wd, { b with
      acc := if b.params.dir = .reverse then reverseBits b.params.init else b.params.init,
      response := some ⟨.none, 0#wd.bits⟩ }⟩) ∧
  (∀ (c : Chunk) (cmd : CmdWord), opField cmd = 0x1#4 →
    (cmd = 0x1000#16 ∧ decode c cmd = .command .reset) ∨
    (cmd ≠ 0x1000#16 ∧ ∃ why, decode c cmd = .illegal why)) ∧
  (∀ (wd : Width) (p : Params wd.bits), reverseBits p.init = p.init → initAdj p = p.init) ∧
  (∀ p : Params 16, p.init = 0xB2AA#16 → initAdj p = if p.dir = .reverse then 0x554D#16 else 0xB2AA#16)

/-- R133: CRC.FINAL answers VALUE with `ACC ^ XOROUT` in both directions and changes nothing else, ACC included; its word is
0x3000, and every other word with OP = 0x3 is illegal; with the rule's corner cases and worked example. -/
def Obligations.FinalRespondsWithTheChecksum : Prop :=
  (∀ (wd : Width) (b : Block wd.bits),
    exec .final ⟨wd, b⟩ = .next ⟨wd, { b with response := some ⟨.value, b.acc ^^^ b.params.xorout⟩ }⟩) ∧
  (∀ (c : Chunk) (cmd : CmdWord), opField cmd = 0x3#4 →
    (cmd = 0x3000#16 ∧ decode c cmd = .command .final) ∨
    (cmd ≠ 0x3000#16 ∧ ∃ why, decode c cmd = .illegal why)) ∧
  (∀ (wd : Width) (acc : BitVec wd.bits), acc ^^^ 0#wd.bits = acc ∧ acc ^^^ BitVec.ofNat wd.bits wd.mask = ~~~acc) ∧
  (∀ (wd : Width) (p : Params wd.bits), exec .final (State.resetOf ⟨wd, p⟩) = .next ⟨wd, { Block.reset p with
    response := some ⟨.value, initAdj p ^^^ p.xorout⟩ }⟩) ∧
  finalize (w := 32) ⟨0x04C11DB7, 0xFFFFFFFF, 0xFFFFFFFF, .reverse, .small⟩ 0x340BC6D9#32 = 0xCBF43926#32

/-- R134: two CRC.FINAL commands with no CRC.UPDATE, CRC.RESET or hardware reset between them (any other words, legal or
illegal, may be) answer the same value; and a CRC.UPDATE after a CRC.FINAL continues from the ACC the CRC.FINAL
left untouched: it ends where the update alone would. -/
def Obligations.FinalHasNoSideEffects : Prop :=
  ∀ (wd : Width) (b : Block wd.bits) (x y : BitVec wd.bits) (rest : List (Input wd.bits)), b.TableBuilt →
    (∀ between : List (CmdWord × BitVec wd.bits),
      (∀ c ∈ between, decode b.params.chunk c.1 ≠ .command .reset ∧
        ∀ byte, decode b.params.chunk c.1 ≠ .command (.update byte)) →
      b.inputs = .command 0x3000#16 x ::
        (between.map (fun c => Input.command c.1 c.2) ++ .command 0x3000#16 y :: rest) →
      ∃ b1 b2 : Block wd.bits,
        run 1 ⟨wd, b⟩ = .next ⟨wd, b1⟩ ∧ run (between.length + 2) ⟨wd, b⟩ = .next ⟨wd, b2⟩ ∧
        b1.response = some ⟨.value, b.acc ^^^ b.params.xorout⟩ ∧ b2.response = b1.response ∧
        b1.acc = b.acc ∧ b2.acc = b.acc) ∧
    (∀ byte : Byte,
      run 2 ⟨wd, { b with inputs := .command 0x3000#16 x :: .command (encode (.update byte)) y :: rest }⟩ =
      run 1 ⟨wd, { b with inputs := .command (encode (.update byte)) y :: rest }⟩)

/-- CRC.RESET followed at once by CRC.FINAL answers `INIT_ADJ ^ XOROUT`, from any state with TABLE complete (43_engine.md section 4).
The list of inputs, of which those that follow are left, is the model's own (assumption 2). -/
def Obligations.ResetThenFinalRespondsWithInitAdj : Prop :=
  ∀ (wd : Width) (b : Block wd.bits) (x y : BitVec wd.bits) (rest : List (Input wd.bits)),
    b.tableReady = true → b.inputs = .command 0x1000#16 x :: .command 0x3000#16 y :: rest →
    ∃ b' : Block wd.bits, run 2 ⟨wd, b⟩ = .next ⟨wd, b'⟩ ∧ b'.acc = initAdj b.params ∧ b'.inputs = rest ∧
      b'.response = some ⟨.value, initAdj b.params ^^^ b.params.xorout⟩ ∧
      (b.params.dir = .forward → b'.response = some ⟨.value, b.params.init ^^^ b.params.xorout⟩) ∧
      (b.params.dir = .reverse → b'.response = some ⟨.value, reverseBits b.params.init ^^^ b.params.xorout⟩)

/-- The command sequence CRC.RESET, one CRC.UPDATE per byte, CRC.FINAL, each command with any OPND beside it (decision D18),
answers, for every message and from every ACC, the fold of `update_byte` over the message from INIT_ADJ, XOR XOROUT; and that
value is the same for every CHUNK (43_engine.md section 4). The model's own: the list of inputs (assumption 2) and the last
operand left standing on OPND (assumption 4). -/
def Obligations.CommandSequenceComputesTheChecksum : Prop :=
  ∀ (wd : Width) (b : Block wd.bits) (message : List (Byte × BitVec wd.bits)) (x y : BitVec wd.bits)
    (rest : List (Input wd.bits)),
    b.TableBuilt → b.inputs = commandInputs (checksumCommands x message y) ++ rest →
    run (message.length + 2) ⟨wd, b⟩ = .next ⟨wd, { b with
      acc := (message.map Prod.fst).foldl (updateByte (entryOf b.params) b.params.dir) (initAdj b.params),
      inputs := rest, opnd := y,
      response := some ⟨.value,
        (message.map Prod.fst).foldl (updateByte (entryOf b.params) b.params.dir) (initAdj b.params) ^^^
          b.params.xorout⟩ }⟩ ∧
    (∀ c : Chunk, checksum { b.params with chunk := c } (message.map Prod.fst) =
      checksum b.params (message.map Prod.fst))

/-- The seven golden check values of spec/95_test_vectors.md §1.1, at every table size. -/
def Obligations.GoldenCheckValues : Prop :=
  ∀ c : Chunk,
    checksum (w := 8) ⟨0x07, 0x00, 0x00, .forward, c⟩ [0x31, 0x32, 0x33, 0x34, 0x35, 0x36, 0x37, 0x38, 0x39] = 0xF4 ∧
    checksum (w := 8) ⟨0x07, 0xFF, 0x00, .reverse, c⟩ [0x31, 0x32, 0x33, 0x34, 0x35, 0x36, 0x37, 0x38, 0x39] = 0xD0 ∧
    checksum (w := 16) ⟨0x1021, 0xFFFF, 0x0000, .forward, c⟩
      [0x31, 0x32, 0x33, 0x34, 0x35, 0x36, 0x37, 0x38, 0x39] = 0x29B1 ∧
    checksum (w := 16) ⟨0x1021, 0x0000, 0x0000, .reverse, c⟩
      [0x31, 0x32, 0x33, 0x34, 0x35, 0x36, 0x37, 0x38, 0x39] = 0x2189 ∧
    checksum (w := 32) ⟨0x04C11DB7, 0xFFFFFFFF, 0xFFFFFFFF, .reverse, c⟩
      [0x31, 0x32, 0x33, 0x34, 0x35, 0x36, 0x37, 0x38, 0x39] = 0xCBF43926 ∧
    checksum (w := 32) ⟨0x04C11DB7, 0x00000000, 0xFFFFFFFF, .forward, c⟩
      [0x31, 0x32, 0x33, 0x34, 0x35, 0x36, 0x37, 0x38, 0x39] = 0x765E7680 ∧
    checksum (w := 64) ⟨0x42F0E1EBA9EA3693, 0x0, 0x0, .forward, c⟩
      [0x31, 0x32, 0x33, 0x34, 0x35, 0x36, 0x37, 0x38, 0x39] = 0x6C40DF5F0B497347

/-- Examples of R42 (two permutations of a message "must NOT generally" give the same result): four checksums of
spec/95_test_vectors.md §1.4, CRC-8 over 01 02 and 02 01 and CRC-16/CCITT over 31 32 and 32 31, which differ. It is no law
for all messages. -/
def Obligations.ByteOrderMatters : Prop :=
  ∀ c : Chunk,
    checksum (w := 8) ⟨0x07, 0x00, 0x00, .forward, c⟩ [0x01, 0x02] = 0x1B ∧
    checksum (w := 8) ⟨0x07, 0x00, 0x00, .forward, c⟩ [0x02, 0x01] = 0x2D ∧
    checksum (w := 16) ⟨0x1021, 0xFFFF, 0x0000, .forward, c⟩ [0x31, 0x32] = 0x3DBA ∧
    checksum (w := 16) ⟨0x1021, 0xFFFF, 0x0000, .forward, c⟩ [0x32, 0x31] = 0x588A

/-- When any number of issuers send well-formed commands of any kind to one core with no agreement, each with any OPND, in any
order at CMD (assumption 11), every command acts on the mixed stream (70_reset_and_hazards.md section 3, program P6): ACC ends
as the fold of the mixed stream from the ACC before it; and where the mixed stream ends with a CRC.RESET, updates and a
CRC.FINAL, whoever sent each of them, the response is the checksum of the mixed bytes. The configuration and TABLE stay. The
list of inputs (assumption 2) and the mark (assumption 5) are the model's own. -/
def Obligations.UnsynchronisedIssuersGetTheMixedStream : Prop :=
  ∀ (wd : Width) (b : Block wd.bits) (schedule : List Nat) (streams : List (List (Instr × BitVec wd.bits)))
    (rest : List (Input wd.bits)),
    b.TableBuilt → (∀ stream ∈ streams, ∀ c ∈ stream, c.1.wf b.params.chunk = true) →
    b.inputs = interleave schedule (streams.map commandInputs) ++ rest →
    ∃ b' : Block wd.bits, run (interleave schedule streams).length ⟨wd, b⟩ = .next ⟨wd, b'⟩ ∧
      b'.acc = (interleave schedule streams).foldl (fun acc c => accAfter b.params acc c.1) b.acc ∧
      b'.inputs = rest ∧ b'.params = b.params ∧ b'.table = b.table ∧ b'.illegalSeen = b.illegalSeen ∧
      (∀ (before : List (Instr × BitVec wd.bits)) (y : BitVec wd.bits),
        interleave schedule streams = before ++ [(.final, y)] →
        b'.response = some ⟨.value, b'.acc ^^^ b.params.xorout⟩) ∧
      (∀ (before : List (Instr × BitVec wd.bits)) (x y : BitVec wd.bits) (message : List (Byte × BitVec wd.bits)),
        interleave schedule streams = before ++ checksumCommands x message y →
        b'.response = some ⟨.value, checksum b.params (message.map Prod.fst)⟩)

/-! ### Reset, configuration, invariants -/

/-- A step that meets RST sets ACC to INIT_ADJ and leaves no response; TABLE and the configuration are unchanged
(70_reset_and_hazards.md section 1). The model's own: it acts with TABLE incomplete too (assumption 3), OPND (assumption 4)
and the mark `illegalSeen` (assumption 5) stay, and the inputs that come after it wait (assumption 13). -/
def Obligations.HardwareResetConstructs : Prop :=
  ∀ (wd : Width) (b : Block wd.bits) (rest : List (Input wd.bits)), b.inputs = .rst :: rest →
    step ⟨wd, b⟩ = .next ⟨wd, { b with
      acc := if b.params.dir = .reverse then reverseBits b.params.init else b.params.init,
      inputs := rest, response := none }⟩

/-- R30: every piece of state after hardware reset, for every configuration. -/
def Obligations.ResetStateIsTheListedOne : Prop :=
  ∀ (wd : Width) (p : Params wd.bits), ∃ b : Block wd.bits,
    State.resetOf ⟨wd, p⟩ = ⟨wd, b⟩ ∧
    b.acc = (if p.dir = .reverse then reverseBits p.init else p.init) ∧
    b.table = build p.poly p.chunk.bits p.dir ∧ b.tableReady = true ∧
    b.params = p ∧ b.response = none

/-- Hardware reset and CRC.RESET leave the same ACC, INIT_ADJ (70_reset_and_hazards.md section 1). The list of inputs
(assumption 2), and that the inputs after RST stay and wait (assumption 13), are the model's own. -/
def Obligations.HardwareResetAndResetCommandAgree : Prop :=
  ∀ (wd : Width) (b : Block wd.bits) (x : BitVec wd.bits) (rest : List (Input wd.bits)), b.tableReady = true →
    ∃ b1 b2 : Block wd.bits,
      step ⟨wd, { b with inputs := .rst :: rest }⟩ = .next ⟨wd, b1⟩ ∧
      step ⟨wd, { b with inputs := .command 0x1000#16 x :: rest }⟩ = .next ⟨wd, b2⟩ ∧
      b1.acc = initAdj b.params ∧ b2.acc = b1.acc ∧ b1.inputs = rest ∧ b2.inputs = rest

/-- R23: no command, no reset and no step of any kind changes the configuration, over any run. -/
def Obligations.ConfigurationNeverChanges : Prop :=
  ∀ (k : Nat) (s t : State), run k s = .next t → t.config = s.config

/-- R94, R95, R27: what every step keeps: every filled slot of TABLE holds its own generated entry and there are no
others, and RDATA is zero unless STATUS is VALUE. -/
def Obligations.EveryStepKeepsSoundness : Prop :=
  ∀ s t : State, s.Sound → step s = .next t → t.Sound

/-- R30, R96: soundness holds right after reset, for every configuration, with TABLE built or filled in part. -/
def Obligations.ResetStatesAreSound : Prop :=
  ∀ cfg : Config, (State.resetOf cfg).Sound ∧ (∀ n : Nat, (State.resetFilling cfg n).Sound)

/-- R27: whatever the state before, the response a step leaves never drives STATUS = 11, and RDATA is all zeros
unless STATUS is VALUE. -/
def Obligations.ResponsesHaveTheListedForm : Prop :=
  ∀ (wd : Width) (b b' : Block wd.bits), step ⟨wd, b⟩ = .next ⟨wd, b'⟩ →
    ∀ r ∈ b'.response, r.status.code ≠ 0b11#2 ∧ (r.status ≠ Status.value → r.rdata = 0#wd.bits)

/-- R21: ACC is written by CRC.RESET, CRC.UPDATE and hardware reset, and by nothing else. -/
def Obligations.OnlyResetUpdateAndRstWriteAcc : Prop :=
  ∀ (wd : Width) (b b' : Block wd.bits), step ⟨wd, b⟩ = .next ⟨wd, b'⟩ → b'.acc ≠ b.acc →
    (∃ rest, b.inputs = .rst :: rest) ∨
    (∃ x rest, b.inputs = .command 0x1000#16 x :: rest) ∨
    (∃ byte x rest, b.inputs = .command (encode (.update byte)) x :: rest)

/-- R27, decision D18: OPND is ignored by every word but CRC.REV's: two states that differ only in the operand sent with the word
take steps that differ only in the OPND left standing, which is the model's own (assumption 4). -/
def Obligations.OperandIsIgnoredExceptByRev : Prop :=
  ∀ (wd : Width) (b : Block wd.bits) (cmd : CmdWord) (rest : List (Input wd.bits)),
    b.tableReady = true → cmd ≠ 0x5000#16 →
    ∃ b' : Block wd.bits, ∀ x : BitVec wd.bits,
      step ⟨wd, { b with inputs := .command cmd x :: rest }⟩ = .next ⟨wd, { b' with opnd := x }⟩

/-- Decision D4 (assumption 5): the model's mark is raised by exactly the steps that answer ILLEGAL, and is never lowered.
The spec's machine does not hold the mark. -/
def Obligations.IllegalMarkRecordsEveryIllegalResponse : Prop :=
  ∀ (wd : Width) (b b' : Block wd.bits), step ⟨wd, b⟩ = .next ⟨wd, b'⟩ →
    (b'.illegalSeen = true ↔ b.illegalSeen = true ∨ b'.response = some ⟨.illegal, 0#wd.bits⟩)

/-- Decision D4: while only legal words (and hardware resets) arrive, no command is answered ILLEGAL, over any run, as the
model's own mark records it (assumption 5). -/
def Obligations.LegalInputsKeepTheRunSafe : Prop :=
  ∀ (k : Nat) (s t : State), s.Safe → (∀ x ∈ s.block.inputs, x.legal s.block.params.chunk = true) →
    run k s = .next t → t.Safe

/-- R49, R161: a step of one core leaves every other core as it was, and depends on that core alone. The list of cores that step
one at a time is the model's own (assumption 11). -/
def Obligations.CoresDoNotInteract : Prop :=
  ∀ (sys sys' : System) (k : Nat), sys.stepCore k = some sys' →
    (∀ j, j ≠ k → sys'.cores[j]? = sys.cores[j]?) ∧
    (∃ s t, sys.cores[k]? = some s ∧ sys'.cores[k]? = some t ∧ step s = .next t)

/-- R151: parameter values give a block exactly when they pass `config_ok`, and then the block has exactly those parameters; others
are refused. -/
def Obligations.OnlyLegalConfigurationsGiveABlock : Prop :=
  ∀ r : RawConfig,
    (r.configOk = true ↔
      (r.w = 8 ∨ r.w = 16 ∨ r.w = 32 ∨ r.w = 64) ∧ (r.chunk = 2 ∨ r.chunk = 4 ∨ r.chunk = 8) ∧
      r.poly < 2 ^ r.w ∧ r.init < 2 ^ r.w ∧ r.xorout < 2 ^ r.w ∧ (r.dir = 0 ∨ r.dir = 1)) ∧
    (r.configOk = true → ∃ cfg : Config, rawOf cfg = r ∧ construct r = .next (State.resetOf cfg)) ∧
    (r.configOk = false → construct r = .refused .illegalConfiguration)

/-! ### Command text -/

/-- R69: the expansions of the pseudo-instructions, and the eleven words of the rule's example. OPND = 0 beside each of those
words is the model's own (assumption 6). -/
def Obligations.PseudoInstructionsExpand : Prop :=
  (∀ bytes : List Nat, (AsmLine.feed bytes).expand = bytes.map AsmCommand.update) ∧
  (∀ codes : List Nat, (AsmLine.string codes).expand = codes.map AsmCommand.update) ∧
  (∀ codes : List Nat, (AsmLine.compute codes).expand =
    AsmCommand.reset :: ((AsmLine.string codes).expand ++ [AsmCommand.final])) ∧
  assembleLine 32 .small
      ['c', 'r', 'c', '.', 'c', 'o', 'm', 'p', 'u', 't', 'e', ' ', stringQuote,
        '1', '2', '3', '4', '5', '6', '7', '8', '9', stringQuote] =
    some ([0x1000#16, 0x2031#16, 0x2032#16, 0x2033#16, 0x2034#16, 0x2035#16, 0x2036#16, 0x2037#16, 0x2038#16,
      0x2039#16, 0x3000#16].map fun cmd => Input.command cmd 0#32)

/-- R68: the word of each core command, the operand of CRC.REV on OPND, and what an assembler refuses. OPND = 0 beside every
command but CRC.REV is the model's own (assumption 6). -/
def Obligations.AssemblerGivesTheListedWords : Prop :=
  ∀ (wd : Width) (c : Chunk),
    AsmCommand.reset.assemble wd.bits c = some (.command 0x1000#16 0#wd.bits) ∧
    (∀ n, n ≤ 0xFF → (AsmCommand.update n).assemble wd.bits c =
      some (.command (0x2000#16 ||| BitVec.ofNat 16 n) 0#wd.bits)) ∧
    AsmCommand.final.assemble wd.bits c = some (.command 0x3000#16 0#wd.bits) ∧
    (∀ n, n < c.entries → (AsmCommand.tread n).assemble wd.bits c =
      some (.command (0x4000#16 ||| BitVec.ofNat 16 n) 0#wd.bits)) ∧
    (∀ n, n < 2 ^ wd.bits → (AsmCommand.rev n).assemble wd.bits c =
      some (.command 0x5000#16 (BitVec.ofNat wd.bits n))) ∧
    (∀ n, 0xFF < n → (AsmCommand.update n).assemble wd.bits c = none) ∧
    (∀ n, c.entries ≤ n → (AsmCommand.tread n).assemble wd.bits c = none) ∧
    (∀ t ts, readMnemonic ['c', 'r', 'c', '.', 'r', 'e', 's', 'e', 't'] (t :: ts) = none ∧
      readMnemonic ['c', 'r', 'c', '.', 'f', 'i', 'n', 'a', 'l'] (t :: ts) = none)
end

