-- ==== Sys2Proof/Laws/Issuers.lean ====
section
/-! SUPPORT. Streams of commands, their interleavings, and runs over them. -/

namespace Sys2Proof.Machine

@[simp] theorem run_zero (s : State) : run 0 s = .next s := rfl

/-- A run of `k + 1` steps whose first step answers a next state is a run of `k` steps from there. -/
theorem run_succ_of_next {k : Nat} {s t : State} (h : step s = .next t) : run (k + 1) s = run k t := by
  have hcore : Sys2Proof.core.step s = .next t := h
  simp only [run, Host.Core.run, hcore]
  rfl

/-- Interleaving commutes with what is done to every element of every stream. -/
theorem interleave_map {α β : Type} (f : α → β) (schedule : List Nat) (streams : List (List α)) :
    interleave schedule (streams.map (List.map f)) = (interleave schedule streams).map f := by
  induction schedule generalizing streams with
  | nil => rfl
  | cons k schedule ih =>
    simp only [interleave, List.getElem?_map]
    rcases streams[k]? with _ | _ | ⟨x, later⟩
    · simpa using ih streams
    · simpa using ih streams
    · simp [← List.map_set, ih]

/-- Nothing stands in an interleaving that stands in no stream. -/
theorem exists_stream_of_mem_interleave {α : Type} {x : α} {schedule : List Nat} {streams : List (List α)}
    (h : x ∈ interleave schedule streams) : ∃ stream ∈ streams, x ∈ stream := by
  induction schedule generalizing streams with
  | nil => simp [interleave] at h
  | cons k schedule ih =>
    simp only [interleave] at h
    split at h
    · rename_i y later hk
      have hmem : y :: later ∈ streams := List.mem_of_getElem? hk
      rcases List.mem_cons.mp h with rfl | h
      · exact ⟨_, hmem, List.mem_cons_self⟩
      · obtain ⟨stream, hs, hx⟩ := ih h
        rcases List.mem_or_eq_of_mem_set hs with hs | rfl
        · exact ⟨stream, hs, hx⟩
        · exact ⟨_, hmem, List.mem_cons_of_mem _ hx⟩
    · exact ih h

/-- The inputs of interleaved streams are the interleaved inputs. -/
theorem interleave_commandInputs {w : Nat} (schedule : List Nat) (streams : List (List (Instr × BitVec w))) :
    interleave schedule (streams.map commandInputs) = commandInputs (interleave schedule streams) :=
  interleave_map _ schedule streams

@[simp] theorem commandInputs_nil {w : Nat} : commandInputs ([] : List (Instr × BitVec w)) = [] := rfl

@[simp] theorem commandInputs_cons {w : Nat} (c : Instr × BitVec w) (sent : List (Instr × BitVec w)) :
    commandInputs (c :: sent) = .command (encode c.1) c.2 :: commandInputs sent := rfl

@[simp] theorem commandInputs_append {w : Nat} (sent later : List (Instr × BitVec w)) :
    commandInputs (sent ++ later) = commandInputs sent ++ commandInputs later := List.map_append ..

section accAfter
variable {w : Nat} (p : Params w) (acc : BitVec w)

@[simp] theorem accAfter_reset : accAfter p acc .reset = initAdj p := rfl
@[simp] theorem accAfter_update (byte : Byte) : accAfter p acc (.update byte) = updateByte (entryOf p) p.dir acc byte := rfl
@[simp] theorem accAfter_final : accAfter p acc .final = acc := rfl
@[simp] theorem accAfter_tread (index : Byte) : accAfter p acc (.tread index) = acc := rfl
@[simp] theorem accAfter_rev : accAfter p acc .rev = acc := rfl

/-- Over updates alone ACC is the fold of the bytes (R135). -/
theorem foldl_accAfter_updateCommands (message : List (Byte × BitVec w)) :
    (updateCommands message).foldl (fun a c => accAfter p a c.1) acc = foldMessage p acc (message.map Prod.fst) := by
  simp [updateCommands, foldMessage, List.foldl_map]

end accAfter

end Sys2Proof.Machine
end

