-- ==== Sys2Proof/Laws/State.lean ====
section
/-! SUPPORT. One lemma per field per update of the state, so that no proof unfolds a record update. -/

namespace Sys2Proof.Machine

@[simp] theorem State.setBlock_mk (wd : Width) (b b' : Block wd.bits) :
    (State.mk wd b).setBlock b' = ⟨wd, b'⟩ := rfl

@[simp] theorem State.setBlock_width (s : State) (b : Block s.width.bits) : (s.setBlock b).width = s.width := rfl

@[simp] theorem State.setBlock_block (s : State) (b : Block s.width.bits) : (s.setBlock b).block = b := rfl

@[simp] theorem State.setBlock_setBlock (s : State) (b b' : Block s.width.bits) :
    State.setBlock (s.setBlock b) b' = s.setBlock b' := rfl

variable {w : Nat} (b : Block w)

@[simp] theorem Block.respond_params (s : Status) (d : BitVec w) :
    (b.respond s d).params = b.params := rfl
@[simp] theorem Block.respond_table (s : Status) (d : BitVec w) :
    (b.respond s d).table = b.table := rfl
@[simp] theorem Block.respond_acc (s : Status) (d : BitVec w) :
    (b.respond s d).acc = b.acc := rfl
@[simp] theorem Block.respond_inputs (s : Status) (d : BitVec w) :
    (b.respond s d).inputs = b.inputs := rfl
@[simp] theorem Block.respond_opnd (s : Status) (d : BitVec w) :
    (b.respond s d).opnd = b.opnd := rfl
@[simp] theorem Block.respond_response (s : Status) (d : BitVec w) :
    (b.respond s d).response = some ⟨s, d⟩ := rfl
@[simp] theorem Block.respond_illegalSeen (s : Status) (d : BitVec w) :
    (b.respond s d).illegalSeen = b.illegalSeen := rfl

@[simp] theorem Block.respondNone_params :
    b.respondNone.params = b.params := rfl
@[simp] theorem Block.respondNone_table :
    b.respondNone.table = b.table := rfl
@[simp] theorem Block.respondNone_acc :
    b.respondNone.acc = b.acc := rfl
@[simp] theorem Block.respondNone_inputs :
    b.respondNone.inputs = b.inputs := rfl
@[simp] theorem Block.respondNone_opnd :
    b.respondNone.opnd = b.opnd := rfl
@[simp] theorem Block.respondNone_response :
    b.respondNone.response = some ⟨Status.none, 0#w⟩ := rfl
@[simp] theorem Block.respondNone_illegalSeen :
    b.respondNone.illegalSeen = b.illegalSeen := rfl

@[simp] theorem Block.respondValue_params (d : BitVec w) :
    (b.respondValue d).params = b.params := rfl
@[simp] theorem Block.respondValue_table (d : BitVec w) :
    (b.respondValue d).table = b.table := rfl
@[simp] theorem Block.respondValue_acc (d : BitVec w) :
    (b.respondValue d).acc = b.acc := rfl
@[simp] theorem Block.respondValue_inputs (d : BitVec w) :
    (b.respondValue d).inputs = b.inputs := rfl
@[simp] theorem Block.respondValue_opnd (d : BitVec w) :
    (b.respondValue d).opnd = b.opnd := rfl
@[simp] theorem Block.respondValue_response (d : BitVec w) :
    (b.respondValue d).response = some ⟨Status.value, d⟩ := rfl
@[simp] theorem Block.respondValue_illegalSeen (d : BitVec w) :
    (b.respondValue d).illegalSeen = b.illegalSeen := rfl

@[simp] theorem Block.writeAcc_params (v : BitVec w) :
    (b.writeAcc v).params = b.params := rfl
@[simp] theorem Block.writeAcc_table (v : BitVec w) :
    (b.writeAcc v).table = b.table := rfl
@[simp] theorem Block.writeAcc_acc (v : BitVec w) :
    (b.writeAcc v).acc = v := rfl
@[simp] theorem Block.writeAcc_inputs (v : BitVec w) :
    (b.writeAcc v).inputs = b.inputs := rfl
@[simp] theorem Block.writeAcc_opnd (v : BitVec w) :
    (b.writeAcc v).opnd = b.opnd := rfl
@[simp] theorem Block.writeAcc_response (v : BitVec w) :
    (b.writeAcc v).response = b.response := rfl
@[simp] theorem Block.writeAcc_illegalSeen (v : BitVec w) :
    (b.writeAcc v).illegalSeen = b.illegalSeen := rfl

@[simp] theorem Block.fillSlot_params :
    b.fillSlot.params = b.params := rfl
@[simp] theorem Block.fillSlot_table :
    b.fillSlot.table = b.table ++
      [generateEntry b.params.poly b.params.dir (BitVec.ofNat b.params.chunk.bits b.table.length)] := rfl
@[simp] theorem Block.fillSlot_acc :
    b.fillSlot.acc = b.acc := rfl
@[simp] theorem Block.fillSlot_inputs :
    b.fillSlot.inputs = b.inputs := rfl
@[simp] theorem Block.fillSlot_opnd :
    b.fillSlot.opnd = b.opnd := rfl
@[simp] theorem Block.fillSlot_response :
    b.fillSlot.response = none := rfl
@[simp] theorem Block.fillSlot_illegalSeen :
    b.fillSlot.illegalSeen = b.illegalSeen := rfl

@[simp] theorem Block.raiseIllegalCommand_params :
    b.raiseIllegalCommand.params = b.params := rfl
@[simp] theorem Block.raiseIllegalCommand_table :
    b.raiseIllegalCommand.table = b.table := rfl
@[simp] theorem Block.raiseIllegalCommand_acc :
    b.raiseIllegalCommand.acc = b.acc := rfl
@[simp] theorem Block.raiseIllegalCommand_inputs :
    b.raiseIllegalCommand.inputs = b.inputs := rfl
@[simp] theorem Block.raiseIllegalCommand_opnd :
    b.raiseIllegalCommand.opnd = b.opnd := rfl
@[simp] theorem Block.raiseIllegalCommand_response :
    b.raiseIllegalCommand.response = some ⟨Status.illegal, 0#w⟩ := rfl
@[simp] theorem Block.raiseIllegalCommand_illegalSeen :
    b.raiseIllegalCommand.illegalSeen = true := rfl

@[simp] theorem Block.hardwareReset_params (rest : List (Input w)) :
    (b.hardwareReset rest).params = b.params := rfl
@[simp] theorem Block.hardwareReset_table (rest : List (Input w)) :
    (b.hardwareReset rest).table = b.table := rfl
@[simp] theorem Block.hardwareReset_acc (rest : List (Input w)) :
    (b.hardwareReset rest).acc = initAdj b.params := rfl
@[simp] theorem Block.hardwareReset_inputs (rest : List (Input w)) :
    (b.hardwareReset rest).inputs = rest := rfl
@[simp] theorem Block.hardwareReset_opnd (rest : List (Input w)) :
    (b.hardwareReset rest).opnd = b.opnd := rfl
@[simp] theorem Block.hardwareReset_response (rest : List (Input w)) :
    (b.hardwareReset rest).response = none := rfl
@[simp] theorem Block.hardwareReset_illegalSeen (rest : List (Input w)) :
    (b.hardwareReset rest).illegalSeen = b.illegalSeen := rfl

@[simp] theorem Block.acceptCommand_params (x : BitVec w) (rest : List (Input w)) :
    (b.acceptCommand x rest).params = b.params := rfl
@[simp] theorem Block.acceptCommand_table (x : BitVec w) (rest : List (Input w)) :
    (b.acceptCommand x rest).table = b.table := rfl
@[simp] theorem Block.acceptCommand_acc (x : BitVec w) (rest : List (Input w)) :
    (b.acceptCommand x rest).acc = b.acc := rfl
@[simp] theorem Block.acceptCommand_inputs (x : BitVec w) (rest : List (Input w)) :
    (b.acceptCommand x rest).inputs = rest := rfl
@[simp] theorem Block.acceptCommand_opnd (x : BitVec w) (rest : List (Input w)) :
    (b.acceptCommand x rest).opnd = x := rfl
@[simp] theorem Block.acceptCommand_response (x : BitVec w) (rest : List (Input w)) :
    (b.acceptCommand x rest).response = b.response := rfl
@[simp] theorem Block.acceptCommand_illegalSeen (x : BitVec w) (rest : List (Input w)) :
    (b.acceptCommand x rest).illegalSeen = b.illegalSeen := rfl

@[simp] theorem Block.hold_params :
    b.hold.params = b.params := rfl
@[simp] theorem Block.hold_table :
    b.hold.table = b.table := rfl
@[simp] theorem Block.hold_acc :
    b.hold.acc = b.acc := rfl
@[simp] theorem Block.hold_inputs :
    b.hold.inputs = b.inputs := rfl
@[simp] theorem Block.hold_opnd :
    b.hold.opnd = b.opnd := rfl
@[simp] theorem Block.hold_response :
    b.hold.response = none := rfl
@[simp] theorem Block.hold_illegalSeen :
    b.hold.illegalSeen = b.illegalSeen := rfl

variable (p : Params w)

@[simp] theorem Block.reset_params : (Block.reset p).params = p := rfl
@[simp] theorem Block.reset_table : (Block.reset p).table = configTable p := rfl
@[simp] theorem Block.reset_acc : (Block.reset p).acc = initAdj p := rfl
@[simp] theorem Block.reset_inputs : (Block.reset p).inputs = [] := rfl
@[simp] theorem Block.reset_opnd : (Block.reset p).opnd = 0#w := rfl
@[simp] theorem Block.reset_response : (Block.reset p).response = none := rfl
@[simp] theorem Block.reset_illegalSeen : (Block.reset p).illegalSeen = false := rfl

end Sys2Proof.Machine
end

