-- ==== Sys2Proof/Laws/Table.lean ====
section
/-! SUPPORT. TABLE: how long it is, when it is complete, and what reading it answers. -/

namespace Sys2Proof.Machine

variable {w : Nat}

@[simp] theorem build_length (poly : BitVec w) (c : Nat) (dir : Dir) : (build poly c dir).length = 2 ^ c := by
  simp [build]

@[simp] theorem configTable_length (p : Params w) : (configTable p).length = p.chunk.entries := by
  simp [configTable, Chunk.entries]

theorem Chunk.entries_pos (c : Chunk) : 0 < c.entries := by cases c <;> decide

/-- TABLE is complete exactly when it has at least TABLE_ENTRIES slots. -/
theorem Block.tableReady_iff (b : Block w) : b.tableReady = true ↔ b.params.chunk.entries ≤ b.table.length := by
  have hpos := Chunk.entries_pos b.params.chunk
  simp only [Block.tableReady, Option.isSome_iff_exists, List.getElem?_eq_some_iff]
  constructor
  · rintro ⟨_, hlt, _⟩; omega
  · intro h; exact ⟨_, by omega, rfl⟩

theorem Block.not_tableReady_iff (b : Block w) : b.tableReady = false ↔ b.table.length < b.params.chunk.entries := by
  rw [← Bool.not_eq_true, Block.tableReady_iff, Nat.not_le]

/-- A complete TABLE can be read. -/
theorem Block.tableRead?_isSome (b : Block w) : b.tableRead?.isSome = b.tableReady := by
  unfold Block.tableRead?
  split <;> simp_all

/-- An incomplete TABLE cannot be read. -/
theorem Block.tableRead?_eq_none {b : Block w} (h : b.tableReady = false) : b.tableRead? = none := by
  simp [Block.tableRead?, h]

/-- What a read of TABLE answers: the entry in that slot. -/
theorem Block.tableRead?_spec {b : Block w} {T : BitVec b.params.chunk.bits → BitVec w} (h : b.tableRead? = some T)
    (i : BitVec b.params.chunk.bits) : b.table[i.toNat]? = some (T i) := by
  unfold Block.tableRead? at h
  split at h
  · cases h; simp
  · cases h

theorem Block.tableReady_of_built {b : Block w} (h : b.TableBuilt) : b.tableReady = true := by
  rw [Block.tableReady_iff, h, configTable_length]

/-- Reading the built TABLE is the generator's entry (R94). -/
theorem Block.tableRead?_of_built {b : Block w} (h : b.TableBuilt) :
    b.tableRead? = some (entryOf b.params) := by
  have hready := Block.tableReady_of_built h
  unfold Block.tableRead?
  rw [dif_pos hready]
  congr 1
  funext i
  simp only [show b.table = configTable b.params from h, configTable, build, List.getElem_map, List.getElem_range,
    BitVec.ofNat_toNat, BitVec.setWidth_eq]

/-- A sound TABLE is complete exactly when it is built. -/
theorem Block.TableSound.built_of_ready {b : Block w} (h : b.TableSound) (hr : b.tableReady = true) : b.TableBuilt := by
  rw [Block.tableReady_iff] at hr
  exact h.eq_of_length_le (by simpa using hr)

end Sys2Proof.Machine
end

