-- ==== Sys2Proof/Laws/Ops.lean ====
section
/-! SUPPORT. What each shared operation and each command can do: one lemma apiece, cited instead of unfolding. -/

namespace Sys2Proof.Machine

variable {w : Nat}

/-- What decides the next event. -/
theorem Block.nextEvent_cases (b : Block w) :
    (∃ rest, b.inputs = .rst :: rest ∧ b.nextEvent = .hardwareReset rest) ∨
    (b.tableReady = false ∧ (∀ rest, b.inputs ≠ .rst :: rest) ∧ b.nextEvent = .fillSlot) ∨
    (∃ cmd x rest, b.tableReady = true ∧ b.inputs = .command cmd x :: rest ∧ b.nextEvent = .accept cmd x rest) ∨
    (b.tableReady = true ∧ b.inputs = [] ∧ b.nextEvent = .idle) := by
  unfold Block.nextEvent
  rcases hin : b.inputs with _ | ⟨_ | ⟨cmd, x⟩, rest⟩ <;> cases hr : b.tableReady <;> simp

/-- `indexOperand` answers exactly for an index below TABLE_ENTRIES (R62). -/
theorem indexOperand_eq (c : Chunk) (imm : Byte) :
    (imm.toNat < c.entries ∧ indexOperand c imm = some (imm.setWidth c.bits)) ∨
    (c.entries ≤ imm.toNat ∧ indexOperand c imm = none) := by
  unfold indexOperand
  split
  · exact .inl ⟨‹_›, rfl⟩
  · exact .inr ⟨Nat.le_of_not_lt ‹_›, rfl⟩

/-- Everything a command can do to a block when it answers a next state. -/
inductive CommandEffect (b : Block w) : Instr → Block w → Prop
  | reset : CommandEffect b .reset (b.writeAcc (initAdj b.params)).respondNone
  | update (byte : Byte) (T : BitVec b.params.chunk.bits → BitVec w) (hT : b.tableRead? = some T) :
      CommandEffect b (.update byte) (b.writeAcc (updateByte T b.params.dir b.acc byte)).respondNone
  | final : CommandEffect b .final (b.respondValue (finalize b.params b.acc))
  | tread (index : Byte) (T : BitVec b.params.chunk.bits → BitVec w) (hi : index.toNat < b.params.chunk.entries)
      (hT : b.tableRead? = some T) :
      CommandEffect b (.tread index) (b.respondValue (T (index.setWidth b.params.chunk.bits)))
  | treadOutOfRange (index : Byte) (hi : b.params.chunk.entries ≤ index.toNat) :
      CommandEffect b (.tread index) b.raiseIllegalCommand
  | rev : CommandEffect b .rev (b.respondValue (reverseBits b.opnd))

/-- Inversion of `exec`: what a command that answers a next state has done. -/
theorem exec_next_inv {i : Instr} {s t : State} (h : exec i s = .next t) :
    ∃ b', t = s.setBlock b' ∧ CommandEffect s.block i b' := by
  cases i with
  | reset => cases h; exact ⟨_, rfl, .reset⟩
  | final => cases h; exact ⟨_, rfl, .final⟩
  | rev => cases h; exact ⟨_, rfl, .rev⟩
  | update byte =>
    simp only [exec, execUpdate] at h
    split at h
    · cases h; exact ⟨_, rfl, .update byte _ ‹_›⟩
    · cases h
  | tread index =>
    simp only [exec, execTread] at h
    rcases indexOperand_eq s.block.params.chunk index with ⟨hi, ho⟩ | ⟨hi, ho⟩
    · simp only [ho] at h
      split at h
      · cases h; exact ⟨_, rfl, .tread index _ hi ‹_›⟩
      · cases h
    · simp only [ho] at h
      cases h; exact ⟨_, rfl, .treadOutOfRange index hi⟩

/-- With TABLE complete, every command answers a next state. -/
theorem exec_answers_next (i : Instr) (s : State) (h : s.block.tableReady = true) : ∃ t, exec i s = .next t := by
  obtain ⟨T, hT⟩ := Option.isSome_iff_exists.mp ((Block.tableRead?_isSome s.block).trans h)
  cases i with
  | reset => exact ⟨_, rfl⟩
  | final => exact ⟨_, rfl⟩
  | rev => exact ⟨_, rfl⟩
  | update byte => exact ⟨_, by simp only [exec, execUpdate, hT]; rfl⟩
  | tread index =>
    rcases indexOperand_eq s.block.params.chunk index with ⟨_, ho⟩ | ⟨_, ho⟩
    · exact ⟨_, by simp only [exec, execTread, ho, hT]; rfl⟩
    · exact ⟨_, by simp only [exec, execTread, ho]; rfl⟩

/-- No command changes the configuration, TABLE, the waiting inputs or OPND (R22, R23, R66). -/
theorem CommandEffect.frame {b b' : Block w} {i : Instr} (h : CommandEffect b i b') :
    b'.params = b.params ∧ b'.table = b.table ∧ b'.inputs = b.inputs ∧ b'.opnd = b.opnd := by
  cases h <;> simp

/-- Presenting a command makes TABLE complete and leaves a complete one alone. -/
theorem Block.presentCommand_tableReady (b : Block w) (cmd : CmdWord) : (b.presentCommand cmd).tableReady = true := by
  rw [Block.tableReady_iff]
  cases hr : b.tableReady
  · simp [Block.presentCommand, hr]
  · simpa [Block.presentCommand, hr] using (Block.tableReady_iff b).mp hr

end Sys2Proof.Machine
end

