-- ==== Sys2Proof/Laws/PerInstr.lean ====
section
/-! SUPPORT. Statements made command by command, about each command as syntax. -/

namespace Sys2Proof.Laws.EncodedFields

/-- The encoded word has RSV = 0 and one of the five legal OP values (spec/30_encoding.md R60, R63). -/
def Statement (i : Instr) : Prop :=
  rsvField (encode i) = 0x0#4 ∧ 0x1 ≤ (opField (encode i)).toNat ∧ (opField (encode i)).toNat ≤ 0x5

theorem commandWord_rsv (op : BitVec 4) (imm : Byte) : rsvField (commandWord op imm) = 0x0#4 := by
  simp only [rsvField, commandWord]
  apply BitVec.eq_of_getLsbD_eq
  intro i hi
  simp only [BitVec.getLsbD_extractLsb', BitVec.getLsbD_append]
  interval_cases i <;> simp

theorem commandWord_op (op : BitVec 4) (imm : Byte) : opField (commandWord op imm) = op := by
  simp only [opField, commandWord]
  apply BitVec.eq_of_getLsbD_eq
  intro i hi
  simp only [BitVec.getLsbD_extractLsb', BitVec.getLsbD_append]
  interval_cases i <;> simp

theorem commandWord_imm8 (op : BitVec 4) (imm : Byte) : imm8Field (commandWord op imm) = imm := by
  simp only [imm8Field, commandWord]
  apply BitVec.eq_of_getLsbD_eq
  intro i hi
  simp only [BitVec.getLsbD_extractLsb', BitVec.getLsbD_append]
  interval_cases i <;> simp

theorem reset : Statement .reset := by
  simp only [Statement, encode, commandWord_rsv, commandWord_op]; decide
theorem update (byte : Byte) : Statement (.update byte) := by
  simp only [Statement, encode, commandWord_rsv, commandWord_op]; decide
theorem final : Statement .final := by
  simp only [Statement, encode, commandWord_rsv, commandWord_op]; decide
theorem tread (index : Byte) : Statement (.tread index) := by
  simp only [Statement, encode, commandWord_rsv, commandWord_op]; decide
theorem rev : Statement .rev := by
  simp only [Statement, encode, commandWord_rsv, commandWord_op]; decide

end Sys2Proof.Laws.EncodedFields
end

