-- ==== Sys2Proof/Laws/Units.lean ====
section
/-! SUPPORT. The pure functions of the units, unfolded once: INIT_ADJ, the generator by direction, and the update by direction
and table size. -/

namespace Sys2Proof.Machine

variable {w : Nat}

/-- INIT_ADJ as the rule writes it (R131). -/
theorem initAdj_eq (p : Params w) : initAdj p = if p.dir = .reverse then reverseBits p.init else p.init := by
  unfold initAdj
  cases p.dir <;> rfl

@[simp] theorem generateEntry_forward {c : Nat} (poly : BitVec w) (i : BitVec c) :
    generateEntry poly .forward i = forwardEntry poly i := rfl

@[simp] theorem generateEntry_reverse {c : Nat} (poly : BitVec w) (i : BitVec c) :
    generateEntry poly .reverse i = reverseEntry poly i := rfl

/-- Four forward chunks, bits 7-6 first (R111). -/
theorem updateByte_forward_tiny (T : BitVec 2 → BitVec w) (acc : BitVec w) (byte : Byte) :
    updateByte T .forward acc byte =
      foldForward T (foldForward T (foldForward T (foldForward T acc (byte.extractLsb' 6 2)) (byte.extractLsb' 4 2))
        (byte.extractLsb' 2 2)) (byte.extractLsb' 0 2) := rfl

/-- Two forward chunks, bits 7-4 first (R111). -/
theorem updateByte_forward_small (T : BitVec 4 → BitVec w) (acc : BitVec w) (byte : Byte) :
    updateByte T .forward acc byte =
      foldForward T (foldForward T acc (byte.extractLsb' 4 4)) (byte.extractLsb' 0 4) := rfl

/-- One forward chunk: the byte (R111). -/
theorem updateByte_forward_large (T : BitVec 8 → BitVec w) (acc : BitVec w) (byte : Byte) :
    updateByte T .forward acc byte = foldForward T acc (byte.extractLsb' 0 8) := rfl

/-- Four reverse chunks, bits 1-0 first (R113). -/
theorem updateByte_reverse_tiny (T : BitVec 2 → BitVec w) (acc : BitVec w) (byte : Byte) :
    updateByte T .reverse acc byte =
      foldReverse T (foldReverse T (foldReverse T (foldReverse T acc (byte.extractLsb' 0 2)) (byte.extractLsb' 2 2))
        (byte.extractLsb' 4 2)) (byte.extractLsb' 6 2) := rfl

/-- Two reverse chunks, bits 3-0 first (R113). -/
theorem updateByte_reverse_small (T : BitVec 4 → BitVec w) (acc : BitVec w) (byte : Byte) :
    updateByte T .reverse acc byte =
      foldReverse T (foldReverse T acc (byte.extractLsb' 0 4)) (byte.extractLsb' 4 4) := rfl

/-- One reverse chunk: the byte (R113). -/
theorem updateByte_reverse_large (T : BitVec 8 → BitVec w) (acc : BitVec w) (byte : Byte) :
    updateByte T .reverse acc byte = foldReverse T acc (byte.extractLsb' 0 8) := rfl

end Sys2Proof.Machine
end

