-- ==== Sys2Proof/Tests/Slice0.lean ====
section
/-! SUPPORT. Small tests, each against a value the spec writes out, the checks of WellFormed refusing an ill-formed
term each, and for every statement that has hypotheses a state and operands that meet them together. -/

namespace Sys2Proof.Tests

open Sys2Proof.Machine

/-! ### Configurations of the spec's examples, and a state with inputs at its ports -/

/-- CRC-8 forward (spec/95_test_vectors.md §1.1). -/
def crc8 (c : Chunk) : Params 8 := ⟨0x07, 0x00, 0x00, .forward, c⟩

/-- CRC-8/ROHC, reverse. -/
def rohc (c : Chunk) : Params 8 := ⟨0x07, 0xFF, 0x00, .reverse, c⟩

/-- CRC-16/CCITT, forward. -/
def ccitt (c : Chunk) : Params 16 := ⟨0x1021, 0xFFFF, 0x0000, .forward, c⟩

/-- CRC-32, reverse. -/
def crc32 (c : Chunk) : Params 32 := ⟨0x04C11DB7, 0xFFFFFFFF, 0xFFFFFFFF, .reverse, c⟩

/-- CRC-16/RIELLO, reverse, with an INIT that is not a palindrome. -/
def riello (c : Chunk) : Params 16 := ⟨0x1021, 0xB2AA, 0x0000, .reverse, c⟩

/-- A block right after reset with inputs at its ports. -/
def blockWith {w : Nat} (p : Params w) (inputs : List (Input w)) : Block w := { Block.reset p with inputs := inputs }

/-- An 8-bit block whose TABLE has its first two slots. -/
def halfFilled (inputs : List (Input 8)) : Block 8 := { blockWith (crc8 .tiny) inputs with table := [0x00, 0x07] }

/-- The state a step answers, if it answers one. -/
def nextOf (a : Answer) : Option State :=
  match a with
  | .next s => some s
  | .fault _ => none
  | .refused _ => none

/-- ACC, STATUS and RDATA as numbers. -/
def seen (s : State) : Nat × Option (Status × Nat) :=
  (s.block.acc.toNat, s.block.response.map fun r => (r.status, r.rdata.toNat))

/-! ### Well-formedness refuses -/

theorem test_wf_tread_tiny : (Instr.tread 0x04).wf .tiny = false ∧ (Instr.tread 0x03).wf .tiny = true := by decide
theorem test_wf_tread_small : (Instr.tread 0x10).wf .small = false ∧ (Instr.tread 0x0F).wf .small = true := by decide
theorem test_wf_tread_large : (Instr.tread 0xFF).wf .large = true := by decide
theorem test_config_good : RawConfig.configOk ⟨16, 0x1021, 0xFFFF, 0, 0, 4⟩ = true := by decide
theorem test_config_width : RawConfig.configOk ⟨12, 0x21, 0, 0, 0, 4⟩ = false := by decide
theorem test_config_chunk : RawConfig.configOk ⟨16, 0x1021, 0, 0, 0, 1⟩ = false := by decide
theorem test_config_poly : RawConfig.configOk ⟨8, 0x107, 0, 0, 0, 4⟩ = false := by decide
theorem test_config_init : RawConfig.configOk ⟨8, 0x07, 0x100, 0, 0, 4⟩ = false := by decide
theorem test_config_xorout : RawConfig.configOk ⟨8, 0x07, 0, 0x100, 0, 4⟩ = false := by decide
theorem test_config_dir : RawConfig.configOk ⟨8, 0x07, 0, 0, 2, 4⟩ = false := by decide

/-! ### Decoding (spec/30_encoding.md R63; spec/95_test_vectors.md §2.5) -/

theorem test_decode_reset : decode .tiny 0b0001000000000000#16 = .command .reset := by decide
theorem test_decode_update : decode .tiny 0b0010000000110001#16 = .command (.update 0x31) := by decide
theorem test_decode_final : decode .tiny 0b0011000000000000#16 = .command .final := by decide
theorem test_decode_tread : decode .small 0b0100000000001111#16 = .command (.tread 0x0F) := by decide
theorem test_decode_rev : decode .large 0b0101000000000000#16 = .command .rev := by decide
theorem test_decode_tread_out_of_range :
    decode .tiny 0x4004 = .illegal .indexOutOfRange ∧ decode .small 0x4010 = .illegal .indexOutOfRange ∧
    decode .large 0x40FF = .command (.tread 0xFF) := by decide
theorem test_decode_reserved_bits : decode .large 0x2F31 = .illegal .rsvNotZero ∧ decode .large 0x7800 = .illegal .rsvNotZero := by
  decide
theorem test_decode_imm8 : decode .large 0x3080 = .illegal .imm8NotZero ∧ decode .large 0x5001 = .illegal .imm8NotZero := by
  decide
theorem test_decode_op : decode .large 0x0000 = .illegal .opIllegal ∧ decode .large 0x60FF = .illegal .opIllegal := by decide
theorem test_encode : [Instr.reset, .update 0x31, .final, .tread 0x0F, .rev].map encode =
    [0x1000, 0x2031, 0x3000, 0x400F, 0x5000] := by decide
theorem test_table_word : decodeTableWord 16 0x40FF = some (.tread 0xFF) ∧ decodeTableWord 16 0x4100 = none := by decide

/-! ### The units (spec/95_test_vectors.md §2.1 to §2.3) -/

theorem test_reverse : reverseBits 0x31#8 = 0x8C ∧ (reverseBits 0x12345678#32).toNat = 0x1E6A2C48 := by decide
theorem test_table_crc8_reverse : configTable (rohc .small) =
    [0x00, 0x1C, 0x38, 0x24, 0x70, 0x6C, 0x48, 0x54, 0xE0, 0xFC, 0xD8, 0xC4, 0x90, 0x8C, 0xA8, 0xB4] := by decide
theorem test_entry_crc32 : generateEntry 0x04C11DB7#32 .forward 0xFF#8 = 0xB1F740B4 ∧
    generateEntry 0x04C11DB7#32 .reverse 0xFF#8 = 0x2D02EF8D := by decide
theorem test_update_ccitt : updateByte (entryOf (ccitt .tiny)) .forward 0xFFFF 0x31 = 0xC782 ∧
    updateByte (entryOf (ccitt .large)) .forward 0xFFFF 0x31 = 0xC782 := by decide
theorem test_fold_ccitt : foldForward (entryOf (ccitt .small)) 0xFFFF 0x3#4 = 0x3E7C := by decide
theorem test_identity : (Config.mk .w32 (crc32 .small)).identity = "CRCCORE-W32-R-C4" := by decide
theorem test_derived_constants : [Chunk.tiny, .small, .large].map (fun c => (c.count, c.entries, c.mask)) =
    [(4, 4, 0x3), (2, 16, 0xF), (1, 256, 0xFF)] := by decide

/-! ### One step of each command (spec/95_test_vectors.md §2 and §4) -/

theorem test_step_reset : (nextOf (step ⟨.w16, { blockWith (riello .small) [.command 0x1000 0] with acc := 0x1234 }⟩)).map seen =
    some (0x554D, some (.none, 0)) := by decide
theorem test_step_update_reverse : (nextOf (step ⟨.w32, blockWith (crc32 .small) [.command 0x2031 0]⟩)).map seen =
    some (0x7C231048, some (.none, 0)) := by decide
theorem test_step_update_width_equals_chunk :
    (nextOf (step ⟨.w8, { blockWith (rohc .large) [.command 0x2001 0] with acc := 0x00 }⟩)).map seen =
    some (0x91, some (.none, 0)) := by decide
theorem test_step_final : (nextOf (step ⟨.w32, { blockWith (crc32 .tiny) [.command 0x3000 0] with acc := 0x340BC6D9 }⟩)).map seen =
    some (0x340BC6D9, some (.value, 0xCBF43926)) := by decide
theorem test_step_tread : (nextOf (step ⟨.w8, blockWith (crc8 .tiny) [.command 0x4003 0]⟩)).map seen =
    some (0x00, some (.value, 0x09)) := by decide
theorem test_step_tread_out_of_range : (nextOf (step ⟨.w8, blockWith (crc8 .tiny) [.command 0x4004 0]⟩)).map seen =
    some (0x00, some (.illegal, 0)) := by decide
theorem test_step_rev : (nextOf (step ⟨.w8, blockWith (crc8 .tiny) [.command 0x5000 0x07]⟩)).map seen =
    some (0x00, some (.value, 0xE0)) := by decide
theorem test_step_illegal : (nextOf (step ⟨.w16, { blockWith (ccitt .tiny) [.command 0x2134 0] with acc := 0x5A78 }⟩)).map seen =
    some (0x5A78, some (.illegal, 0)) := by decide
theorem test_step_rst : (nextOf (step ⟨.w8, { halfFilled [.rst] with acc := 0x12 }⟩)).map seen = some (0x00, none) := by decide
theorem test_step_fill : (nextOf (step ⟨.w8, halfFilled [.command 0x1000 0]⟩)).map
    (fun s => (s.block.table.map BitVec.toNat, s.block.inputs.length)) = some ([0x00, 0x07, 0x0E], 1) := by decide
theorem test_presented_word : (nextOf (step (State.reset.withFetchWord 16 0x4001))).map seen =
    some (0xFFFFFFFF, some (.value, 0x77073096)) := by decide

/-! ### Command text (spec/30_encoding.md R68, R69) -/

theorem test_assemble_rev : assembleLine 16 .tiny "crc.rev 0x1021 ; POLY".toList = some [.command 0x5000 0x1021] := by decide
theorem test_assemble_feed : assembleLine 8 .tiny "crc.feed '1', 0x32,51".toList =
    some [.command 0x2031 0, .command 0x2032 0, .command 0x2033 0] := by decide
theorem test_assemble_refuses : assembleLine 8 .tiny "crc.update 256".toList = none ∧
    assembleLine 8 .small "crc.tread 16".toList = none ∧ assembleLine 8 .tiny "crc.final 1".toList = none := by decide

/-! ### Witnesses: states and operands that meet a statement's hypotheses together -/

theorem witness_DecodeEncodeRoundTrip : (Instr.tread 0x03).wf .tiny = true ∧ (Instr.tread 0x0F).wf .small = true ∧
    (Instr.tread 0xFF).wf .large = true ∧ Instr.reset.wf .tiny = true := by decide

theorem witness_LegalWordIsItsCommandsEncoding : decode .tiny 0x4003 = .command (.tread 0x03) := by decide

theorem witness_DecoderAgreesWithOpcodeTable_illegal :
    (0x0FFF#16).toNat < 0x1000 ∧ 0x6000 ≤ (0x6000#16).toNat ∧ 0x6000 ≤ (0xFFFF#16).toNat := by decide

theorem witness_IllegalWordsAreTheListedOnes : (blockWith (crc8 .tiny) [.command 0x4004 5]).tableReady = true ∧
    (blockWith (crc8 .tiny) [.command 0x4004 5]).inputs = .command 0x4004 5 :: [] ∧
    decode .tiny 0x4004 = .illegal .indexOutOfRange := by decide

theorem witness_StepRunsTheDecodedCommand : (blockWith (crc8 .tiny) [.command 0x4003 5]).tableReady = true ∧
    (blockWith (crc8 .tiny) [.command 0x4003 5]).inputs = .command 0x4003 5 :: [] ∧
    decode .tiny 0x4003 = .command (.tread 0x03) := by decide

theorem witness_IdleCoreHoldsItsState :
    (blockWith (crc8 .tiny) []).tableReady = true ∧ (blockWith (crc8 .tiny) []).inputs = [] := by decide

theorem witness_IllegalWordsInARowChangeNothing :
    let b := blockWith (crc8 .tiny) [.command 0x5001 7, .command 0x0000 0, .command 0x1000 0]
    let sent : List (CmdWord × BitVec 8) := [(0x5001, 7), (0x0000, 0)]
    b.tableReady = true ∧ sent ≠ [] ∧ decode b.params.chunk 0x5001 = .illegal .imm8NotZero ∧
    decode b.params.chunk 0x0000 = .illegal .opIllegal ∧
    b.inputs = sent.map (fun c => Input.command c.1 c.2) ++ [.command 0x1000 0] := by decide

theorem witness_InputsAreTakenOneAtATimeInOrder : (blockWith (crc8 .tiny) [.command 0x1000 0, .rst]).tableReady = true := by
  decide

theorem witness_ReverseBits_positions : 0 < Width.w8.bits ∧ 63 < Width.w64.bits := by decide

theorem witness_RevRespondsWithReversedOperand :
    opField 0x5000#16 = 0x5 ∧ opField 0x5800#16 = 0x5 ∧ opField 0x5001#16 = 0x5 := by decide

theorem witness_CompletedTableIsNeverChanged : (blockWith (crc8 .tiny) [.command 0x2031 0]).tableReady = true ∧
    (nextOf (step ⟨.w8, blockWith (crc8 .tiny) [.command 0x2031 0]⟩)).isSome = true ∧
    (blockWith (crc8 .tiny) [.command 0x2031 0]).TableSound ∧
    (blockWith (crc8 .tiny) [.command 0x2031 0]).nextEvent = .accept 0x2031 0 [] := by decide

theorem witness_CommandsWaitWhileTableIsBuilt : (halfFilled [.command 0x1000 0]).tableReady = false ∧
    (∀ rest, (halfFilled [.command 0x1000 0]).inputs ≠ .rst :: rest) := by
  exact ⟨by decide, fun rest h => by cases h⟩

theorem witness_TableIsWholeAfterItsRemainingSlots : (halfFilled []).TableSound ∧ (halfFilled []).tableReady = false ∧
    (∀ rest, (halfFilled []).inputs ≠ .rst :: rest) := by
  exact ⟨by decide, by decide, fun rest h => by cases h⟩

theorem witness_TreadRespondsWithTheEntry : (blockWith (crc8 .tiny) []).TableBuilt ∧ (0x03#8).toNat < Chunk.tiny.entries ∧
    Chunk.tiny.entries ≤ (0x04#8).toNat ∧ Chunk.small.entries ≤ (0x10#8).toNat ∧ (0xFF#8).toNat < Chunk.large.entries ∧
    opField 0x4004#16 = 0x4 ∧ opField 0x4403#16 = 0x4 ∧ (crc8 .tiny).dir = .forward ∧ (rohc .tiny).dir = .reverse := by decide

theorem witness_UpdateFoldsTheByteIntoAcc : (blockWith (rohc .small) []).TableBuilt ∧
    opField 0x20FF#16 = 0x2 ∧ opField 0x2F31#16 = 0x2 := by decide

theorem witness_TableReadersAreStuckBeforeTheTableIsBuilt :
    (halfFilled []).tableReady = false ∧ (0x03#8).toNat < (halfFilled []).params.chunk.entries := by decide

theorem witness_ResetRestoresTheInitialValue : opField 0x1000#16 = 0x1 ∧ opField 0x1100#16 = 0x1 ∧
    reverseBits (rohc .tiny).init = (rohc .tiny).init ∧ (riello .tiny).init = 0xB2AA := by decide

theorem witness_FinalRespondsWithTheChecksum : opField 0x3000#16 = 0x3 ∧ opField 0x3080#16 = 0x3 := by decide

theorem witness_FinalHasNoSideEffects :
    let b := blockWith (crc8 .tiny) [.command 0x3000 1, .command 0x5000 2, .command 0x0000 3, .command 0x3000 4, .rst]
    b.TableBuilt ∧ decode b.params.chunk 0x5000 = .command .rev ∧ decode b.params.chunk 0x0000 = .illegal .opIllegal ∧
    b.inputs = .command 0x3000 1 :: (([(0x5000, 2), (0x0000, 3)] : List (CmdWord × BitVec 8)).map
      (fun c => Input.command c.1 c.2) ++ .command 0x3000 4 :: [.rst]) := by decide

theorem witness_ResetThenFinalRespondsWithInitAdj :
    (blockWith (riello .tiny) [.command 0x1000 0, .command 0x3000 0]).tableReady = true ∧
    (riello .tiny).dir = .reverse ∧ (ccitt .tiny).dir = .forward := by decide

theorem witness_CommandSequenceComputesTheChecksum :
    let b := blockWith (rohc .tiny) (commandInputs (checksumCommands 0x05 [(0x31, 0x07), (0x32, 0xFF)] 0x09) ++ [.rst])
    b.TableBuilt ∧ b.inputs = [.command 0x1000 0x05, .command 0x2031 0x07, .command 0x2032 0xFF, .command 0x3000 0x09, .rst] ∧
    b.inputs = commandInputs (checksumCommands 0x05 [(0x31, 0x07), (0x32, 0xFF)] 0x09) ++ [.rst] := by decide

/-- Program P6 of spec/95_test_vectors.md: issuer A sends CRC.RESET, "12" and CRC.FINAL, issuer B "34". -/
def issuersOfP6 : List (List (Instr × BitVec 8)) :=
  [checksumCommands 0x01 [(0x31, 0x02), (0x32, 0x03)] 0x04, updateCommands [(0x33, 0x05), (0x34, 0x06)]]

theorem witness_UnsynchronisedIssuersGetTheMixedStream :
    let b := blockWith (crc8 .small) (interleave [0, 0, 1, 0, 1, 0] (issuersOfP6.map commandInputs) ++ [.rst])
    b.TableBuilt ∧ (∀ stream ∈ issuersOfP6, ∀ c ∈ stream, c.1.wf b.params.chunk = true) ∧
    b.inputs = interleave [0, 0, 1, 0, 1, 0] (issuersOfP6.map commandInputs) ++ [.rst] ∧
    interleave [0, 0, 1, 0, 1, 0] issuersOfP6 =
      checksumCommands 0x01 [(0x31, 0x02), (0x33, 0x05), (0x32, 0x03), (0x34, 0x06)] 0x04 := by decide

/-- The checksum issuer A receives in P6. -/
theorem test_checksum_of_mixed_stream : checksum (crc8 .small) [0x31, 0x33, 0x32, 0x34] = 0xBC := by decide

theorem witness_HardwareResetConstructs : (halfFilled [.rst, .command 0x3000 0]).inputs = .rst :: [.command 0x3000 0] := by decide

theorem witness_HardwareResetAndResetCommandAgree : (blockWith (riello .tiny) []).tableReady = true := by decide

theorem witness_ConfigurationNeverChanges : ∃ t, run 2 ⟨.w8, blockWith (crc8 .tiny) [.rst, .command 0x2031 0]⟩ = .next t :=
  ⟨_, rfl⟩

theorem witness_EveryStepKeepsSoundness : State.Sound ⟨.w8, halfFilled []⟩ ∧
    (nextOf (step ⟨.w8, halfFilled []⟩)).isSome = true := by
  refine ⟨⟨by decide, ?_⟩, by decide⟩
  intro r h; cases h

theorem witness_ResponsesHaveTheListedForm :
    ∃ b', step ⟨.w8, blockWith (crc8 .tiny) [.command 0x4003 0]⟩ = .next ⟨.w8, b'⟩ ∧ b'.response = some ⟨.value, 0x09⟩ :=
  ⟨_, rfl, rfl⟩

theorem witness_OnlyResetUpdateAndRstWriteAcc :
    ∃ b', step ⟨.w8, blockWith (crc8 .tiny) [.command 0x2031 0]⟩ = .next ⟨.w8, b'⟩ ∧ b'.acc ≠ 0x00 :=
  ⟨_, rfl, by decide⟩

theorem witness_OperandIsIgnoredExceptByRev :
    (blockWith (crc8 .tiny) []).tableReady = true ∧ (0x2031#16 : CmdWord) ≠ 0x5000#16 := by decide

theorem witness_IllegalMarkRecordsEveryIllegalResponse :
    ∃ b', step ⟨.w8, blockWith (crc8 .tiny) [.command 0x0000 0]⟩ = .next ⟨.w8, b'⟩ ∧ b'.illegalSeen = true :=
  ⟨_, rfl, rfl⟩

theorem witness_LegalInputsKeepTheRunSafe :
    let s : State := ⟨.w8, blockWith (crc8 .tiny) [.command 0x4003 0, .rst, .command 0x20FF 0]⟩
    s.Safe ∧ (∀ x ∈ s.block.inputs, x.legal s.block.params.chunk = true) ∧ (nextOf (run 3 s)).isSome = true := by decide

theorem witness_CoresDoNotInteract :
    ((System.mk [State.resetOf ⟨.w8, crc8 .tiny⟩, State.resetOf ⟨.w16, ccitt .tiny⟩]).stepCore 0).isSome = true := by decide

theorem witness_OnlyLegalConfigurationsGiveABlock :
    RawConfig.configOk ⟨64, 2 ^ 64 - 1, 0, 0, 1, 8⟩ = true ∧ RawConfig.configOk ⟨64, 2 ^ 64, 0, 0, 1, 8⟩ = false := by decide

theorem witness_AssemblerGivesTheListedWords : 0xFF ≤ 0xFF ∧ 0xFF < 0x100 ∧ 3 < Chunk.tiny.entries ∧
    Chunk.tiny.entries ≤ 4 ∧ 255 < 2 ^ Width.w8.bits := by decide

end Sys2Proof.Tests
end

section
/-! Proofs of the statements about the state of a core (spec/10_state.md). -/

namespace Sys2Proof.Machine

/-- TABLE is built in the state after reset (R30, R94). -/
theorem Block.reset_tableBuilt {w : Nat} (p : Params w) : (Block.reset p).TableBuilt := Block.reset_table p

/-- So a core accepts commands right after reset (R30, R177). -/
@[simp] theorem Block.reset_tableReady {w : Nat} (p : Params w) : (Block.reset p).tableReady = true :=
  Block.tableReady_of_built (Block.reset_tableBuilt p)

/-- Settles O42: the block after reset is `Block.reset`; its ACC is INIT_ADJ in the rule's own form (R131), and its TABLE is
complete because it is built. -/
theorem resetStateIsTheListedOne : Obligations.ResetStateIsTheListedOne := by
  intro wd p
  have hacc : (Block.reset p).acc = if p.dir = .reverse then reverseBits p.init else p.init :=
    (Block.reset_acc p).trans (initAdj_eq p)
  have htable : (Block.reset p).table = build p.poly p.chunk.bits p.dir := Block.reset_table p
  exact ⟨Block.reset p, rfl, hacc, htable, Block.reset_tableReady p, Block.reset_params p, Block.reset_response p⟩

end Sys2Proof.Machine
end

section
/-! What the decoder answers on a word by its fields (spec/30_encoding.md R60, R65), for the commands whose IMM8 field must
be zero. -/

namespace Sys2Proof

variable {c : Chunk} {cmd : CmdWord} {i : Instr}

/-- A command word is its three fields, OP first (R60). -/
theorem opField_append_rsvField_append_imm8Field (cmd : CmdWord) :
    opField cmd ++ rsvField cmd ++ imm8Field cmd = cmd := by
  have hhigh : opField cmd ++ rsvField cmd = cmd.extractLsb' 8 8 :=
    BitVec.extractLsb'_append_extractLsb'_eq_extractLsb' (show 12 = 8 + 4 from rfl)
  rw [hhigh]
  exact BitVec.extractLsb'_append_extractLsb' (w := 8) (len := 8) (x := cmd)

/-- A word with RSV = 0 and IMM8 = 0 is fixed by its OP field. -/
theorem eq_commandWord_of_fields_zero (hrsv : rsvField cmd = 0x0#4) (himm : imm8Field cmd = 0x00#8) :
    cmd = commandWord (opField cmd) 0x00#8 := by
  have hfields := opField_append_rsvField_append_imm8Field cmd
  rw [hrsv, himm] at hfields
  exact hfields.symm

theorem decode_of_rsvField_ne_zero (hrsv : rsvField cmd ≠ 0x0#4) : decode c cmd = .illegal .rsvNotZero :=
  if_pos hrsv

theorem decode_of_opField_rev (hop : opField cmd = 0x5#4) (hrsv : rsvField cmd = 0x0#4) :
    decode c cmd = withZeroImm8 (imm8Field cmd) .rev := by
  simp [decode, hop, hrsv]

/-- Where an OP value stands for a command whose IMM8 must be zero, one word of that OP is the command and every other is
illegal: RSV or IMM8 is not zero in it (R65). -/
theorem decode_of_zeroImm8 (h : rsvField cmd = 0x0#4 → decode c cmd = withZeroImm8 (imm8Field cmd) i) :
    (cmd = commandWord (opField cmd) 0x00#8 ∧ decode c cmd = .command i) ∨
    (cmd ≠ commandWord (opField cmd) 0x00#8 ∧ ∃ why, decode c cmd = .illegal why) := by
  by_cases hrsv : rsvField cmd = 0x0#4
  · by_cases himm : imm8Field cmd = 0x00#8
    · exact .inl ⟨eq_commandWord_of_fields_zero hrsv himm, by rw [h hrsv, withZeroImm8, if_pos himm]⟩
    · refine .inr ⟨fun heq => himm ?_, _, by rw [h hrsv, withZeroImm8, if_neg himm]⟩
      rw [heq, Laws.EncodedFields.commandWord_imm8]
  · refine .inr ⟨fun heq => hrsv ?_, _, decode_of_rsvField_ne_zero hrsv⟩
    rw [heq, Laws.EncodedFields.commandWord_rsv]

end Sys2Proof
end

section
/-! Proofs of the statements about bit reversal (spec/40_bit_reversal.md). The loop of R80 is read bit by bit once, by
induction on its rounds; it is then the library's `BitVec.reverse`, and each law is read off the bits. -/

namespace Sys2Proof.Machine

variable {w : Nat}

/-- One round of the loop of R80 sets bit `n` where the operand's mirrored bit is set. -/
theorem reverseLow_succ_getLsbD (x : BitVec w) {n : Nat} (hn : n < w) (i : Nat) :
    (reverseLow x (n + 1)).getLsbD i =
      ((reverseLow x n).getLsbD i || (decide (n = i) && x.getLsbD (w - 1 - n))) := by
  cases hx : x.getLsbD (w - 1 - n) <;> simp [reverseLow, hx, BitVec.getLsbD_twoPow, hn]

/-- After `n` rounds of the loop of R80 the low `n` bits are in place, and the bits above are still zero. -/
theorem reverseLow_getLsbD (x : BitVec w) {n : Nat} (hn : n ≤ w) (i : Nat) :
    (reverseLow x n).getLsbD i = (decide (i < n) && x.getLsbD (w - 1 - i)) := by
  induction n with
  | zero => simp [reverseLow]
  | succ n ih =>
    rw [reverseLow_succ_getLsbD x hn, ih (Nat.le_of_succ_le hn)]
    by_cases hni : n = i
    · simp [hni]
    · have hlt : i < n + 1 ↔ i < n := by omega
      simp [hni, hlt]

/-- R80 at every position: below `w` the mirrored bit, above it zero. -/
@[simp] theorem reverseBits_getLsbD (x : BitVec w) (i : Nat) : (reverseBits x).getLsbD i = x.getMsbD i :=
  reverseLow_getLsbD x (Nat.le_refl w) i

/-- The unit computes the library's reversal. -/
theorem reverseBits_eq_reverse (x : BitVec w) : reverseBits x = x.reverse :=
  BitVec.eq_of_getLsbD_eq fun i _ => by rw [reverseBits_getLsbD, BitVec.getLsbD_reverse]

@[simp] theorem reverseBits_reverseBits (x : BitVec w) : reverseBits (reverseBits x) = x := by
  simp only [reverseBits_eq_reverse, BitVec.reverse_reverse_eq]

theorem reverseBits_xor (x y : BitVec w) : reverseBits (x ^^^ y) = reverseBits x ^^^ reverseBits y :=
  BitVec.eq_of_getLsbD_eq fun i _ => by
    simp only [reverseBits_getLsbD, BitVec.getMsbD_xor, BitVec.getLsbD_xor]

@[simp] theorem reverseBits_zero : reverseBits (0#w) = 0#w :=
  BitVec.eq_of_getLsbD_eq fun i _ => by simp

@[simp] theorem reverseBits_allOnes : reverseBits (BitVec.allOnes w) = BitVec.allOnes w :=
  BitVec.eq_of_getLsbD_eq fun i hi => by simp [hi]

/-- The one set bit of `2^i` goes to its mirror position. -/
theorem reverseBits_twoPow {i : Nat} (hi : i < w) :
    reverseBits (BitVec.twoPow w i) = BitVec.twoPow w (w - 1 - i) :=
  BitVec.eq_of_getLsbD_eq fun j hj => by
    have hmirror : j = w - i - 1 ↔ w - 1 - i = j := by omega
    have hlt : w - 1 - i < w := by omega
    simp only [reverseBits_getLsbD, BitVec.getMsbD_twoPow, BitVec.getLsbD_twoPow, hi, hlt, hmirror]

/-- MASK_W (R11) is the word of all ones. -/
theorem ofNat_mask (wd : Width) : BitVec.ofNat wd.bits wd.mask = BitVec.allOnes wd.bits :=
  (BitVec.ofNatLT_eq_ofNat _).symm

theorem reverseBits_mask (wd : Width) :
    reverseBits (BitVec.ofNat wd.bits wd.mask) = BitVec.ofNat wd.bits wd.mask := by
  rw [ofNat_mask, reverseBits_allOnes]

/-- CRC.REV answers in every state (R84). -/
theorem exec_rev (s : State) :
    exec .rev s = .next (s.setBlock (s.block.respondValue (reverseBits s.block.opnd))) := rfl

/-- Settles O12: below W the reversal's bit is the operand's bit counted from the top, which stands at W-1-i. -/
theorem reverseBitsMirrorsEveryPosition : Obligations.ReverseBitsMirrorsEveryPosition := by
  intro wd x i hi
  rw [reverseBits_getLsbD, BitVec.getMsbD_eq_getLsbD, decide_eq_true hi, Bool.true_and]

/-- Settles O13: each law is one of the bitwise laws above, at the width of the configuration. -/
theorem reverseBitsLaws : Obligations.ReverseBitsLaws := by
  intro wd
  refine ⟨reverseBits_reverseBits, fun i hi => ?_, reverseBits_xor, reverseBits_zero, reverseBits_mask wd⟩
  simp only [← BitVec.twoPow_eq]
  exact reverseBits_twoPow hi

/-- Settles O14: the command's one outcome, the only word of OP = 0x5 with RSV and IMM8 zero, the laws of R82, and the
rule's examples by evaluation. -/
theorem revRespondsWithReversedOperand : Obligations.RevRespondsWithReversedOperand := by
  refine ⟨fun wd b => exec_rev ⟨wd, b⟩, fun c cmd hop => ?_, fun wd => ?_, by decide, by decide, by decide⟩
  · have hword : commandWord (opField cmd) 0x00#8 = 0x5000#16 := by rw [hop]; rfl
    rw [← hword]
    exact decode_of_zeroImm8 (decode_of_opField_rev hop)
  · exact ⟨reverseBits_zero, reverseBits_mask wd, reverseBits_reverseBits⟩

end Sys2Proof.Machine
end

section
/-! Proofs of the statements about the table generator (spec/41_table_generator.md). A forward round is linear over XOR, and
bit reversal carries it to a reverse round; so reverse generation is forward generation mirrored, and each law is proved
for the forward direction only. -/

namespace Sys2Proof.Machine

variable {w c : Nat}

theorem reverseBits_shiftLeft (x : BitVec w) (n : Nat) : reverseBits (x <<< n) = reverseBits x >>> n :=
  BitVec.eq_of_getLsbD_eq fun i hi => by
    simp only [reverseBits_getLsbD, BitVec.getLsbD_ushiftRight, BitVec.getMsbD_shiftLeft, Nat.add_comm]

@[simp] theorem reverseBits_getMsbD (x : BitVec w) (i : Nat) : (reverseBits x).getMsbD i = x.getLsbD i := by
  rw [← reverseBits_getLsbD, reverseBits_reverseBits]

/-- The mirror image of a word's low `c` bits, moved to the top: the index as each direction places it (R91, R92). -/
theorem reverseBits_setWidth_shiftLeft (hc : c ≤ w) (i : BitVec c) :
    reverseBits ((reverseBits i).setWidth w <<< (w - c)) = i.setWidth w :=
  BitVec.eq_of_getLsbD_eq fun j hj => by
    have hpos : j + (w - c) + c - w = j := by omega
    have hin : w - c ≤ j + (w - c) := Nat.le_add_left _ _
    simp only [reverseBits_getLsbD, BitVec.getMsbD_shiftLeft, BitVec.getMsbD_setWidth, BitVec.getLsbD_setWidth,
      reverseBits_getMsbD, hpos, hin, hj]

/-- Bit reversal carries a round of R91 to a round of R92 with the reversed polynomial. -/
theorem reverseBits_forwardRound (poly r : BitVec w) :
    reverseBits (forwardRound poly r) = reverseRound (reverseBits poly) (reverseBits r) := by
  have htest : (reverseBits r).getLsbD 0 = r.msb := reverseBits_getLsbD r 0
  simp only [forwardRound, reverseRound, htest, apply_ite reverseBits, reverseBits_xor, reverseBits_shiftLeft]

/-- Law 5 of R93: reverse generation is forward generation mirrored, index and entry. -/
theorem reverseEntry_eq_reverseBits_forwardEntry (hc : c ≤ w) (poly : BitVec w) (i : BitVec c) :
    reverseEntry poly i = reverseBits (forwardEntry poly (reverseBits i)) := by
  have hrounds : Function.Semiconj reverseBits (forwardRound poly) (reverseRound (reverseBits poly)) :=
    reverseBits_forwardRound poly
  rw [forwardEntry, (hrounds.iterate_right c).eq, reverseBits_setWidth_shiftLeft hc, reverseEntry]

theorem forwardRound_xor (poly x y : BitVec w) :
    forwardRound poly (x ^^^ y) = forwardRound poly x ^^^ forwardRound poly y := by
  simp only [forwardRound, BitVec.msb_xor, BitVec.shiftLeft_xor_distrib]
  cases x.msb <;> cases y.msb
  · rfl
  · exact BitVec.xor_assoc ..
  · show (x <<< 1 ^^^ y <<< 1) ^^^ poly = (x <<< 1 ^^^ poly) ^^^ y <<< 1
    ac_rfl
  · calc x <<< 1 ^^^ y <<< 1
      _ = (x <<< 1 ^^^ y <<< 1) ^^^ (poly ^^^ poly) := by rw [BitVec.xor_self, BitVec.xor_zero]
      _ = (x <<< 1 ^^^ poly) ^^^ (y <<< 1 ^^^ poly) := by ac_rfl

theorem forwardEntry_xor (poly : BitVec w) (i j : BitVec c) :
    forwardEntry poly (i ^^^ j) = forwardEntry poly i ^^^ forwardEntry poly j := by
  have hrounds : Function.Semiconj₂ (forwardRound poly)^[c] (· ^^^ ·) (· ^^^ ·) :=
    Function.Semiconj₂.iterate (forwardRound_xor poly) c
  simp only [forwardEntry, BitVec.setWidth_xor, BitVec.shiftLeft_xor_distrib, hrounds.eq]

/-- Law 1 of R93: the zero index is the XOR of any index with itself, and entries are linear. -/
theorem forwardEntry_zero (poly : BitVec w) : forwardEntry poly (0#c) = 0#w := by
  have h := forwardEntry_xor poly (0#c) (0#c)
  rwa [BitVec.xor_self, BitVec.xor_self] at h

/-- A set bit below the top moves up one place (R91). -/
theorem forwardRound_twoPow (poly : BitVec w) {i : Nat} (hi : i + 1 < w) :
    forwardRound poly (BitVec.twoPow w i) = BitVec.twoPow w (i + 1) := by
  have hmsb : (BitVec.twoPow w i).msb = false := by
    rw [BitVec.msb_twoPow, decide_eq_false (show i ≠ w - 1 by omega), Bool.and_false]
  rw [forwardRound, hmsb, if_neg Bool.false_ne_true, BitVec.twoPow_eq, BitVec.twoPow_eq, BitVec.shiftLeft_add]

/-- A set bit at the top is lost, and the polynomial takes its place (R91). -/
theorem forwardRound_twoPow_top (poly : BitVec w) (hw : 0 < w) :
    forwardRound poly (BitVec.twoPow w (w - 1)) = poly := by
  have hmsb : (BitVec.twoPow w (w - 1)).msb = true := by simp [BitVec.msb_twoPow, hw]
  have hlost : BitVec.twoPow w (w - 1) <<< 1 = 0#w := by
    rw [BitVec.twoPow_eq, ← BitVec.shiftLeft_add, BitVec.shiftLeft_eq_zero (by omega)]
  rw [forwardRound, if_pos hmsb, hlost, BitVec.zero_xor]

theorem iterate_forwardRound_twoPow (poly : BitVec w) {i : Nat} (n : Nat) (hn : i + n < w) :
    (forwardRound poly)^[n] (BitVec.twoPow w i) = BitVec.twoPow w (i + n) := by
  induction n with
  | zero => rfl
  | succ n ih => rw [Function.iterate_succ_apply', ih (by omega), forwardRound_twoPow poly (by omega), Nat.add_assoc]

/-- Law 2 of R93: the index 1 reaches the top in `c - 1` rounds, and the last round leaves the polynomial. -/
theorem forwardEntry_one (poly : BitVec w) (hpos : 0 < c) (hc : c ≤ w) : forwardEntry poly (1#c) = poly := by
  obtain ⟨n, rfl⟩ : ∃ n, c = n + 1 := ⟨c - 1, by omega⟩
  have hplaced : (1#(n + 1)).setWidth w <<< (w - (n + 1)) = BitVec.twoPow w (w - (n + 1)) := by
    rw [BitVec.setWidth_ofNat_one_eq_ofNat_one_of_lt hpos, BitVec.twoPow_eq]
  have htop : w - (n + 1) + n = w - 1 := by omega
  rw [forwardEntry, hplaced, Function.iterate_succ_apply', iterate_forwardRound_twoPow poly n (by omega), htop,
    forwardRound_twoPow_top poly (by omega)]

/-- With the zero polynomial a round of R91 is a plain shift. -/
theorem iterate_forwardRound_zeroPoly (n : Nat) (r : BitVec w) : (forwardRound (0#w))^[n] r = r <<< n := by
  induction n with
  | zero => exact (BitVec.shiftLeft_zero r).symm
  | succ n ih => simp [Function.iterate_succ_apply', ih, forwardRound, BitVec.shiftLeft_add]

/-- Law 6 of R93: placing the index and shifting it `c` places more moves it out of the word. -/
theorem forwardEntry_zeroPoly (hc : c ≤ w) (i : BitVec c) : forwardEntry (0#w) i = 0#w := by
  rw [forwardEntry, iterate_forwardRound_zeroPoly, ← BitVec.shiftLeft_add, Nat.sub_add_cancel hc,
    BitVec.shiftLeft_eq_zero (Nat.le_refl w)]

theorem Chunk.bits_pos (c : Chunk) : 0 < c.bits := by cases c <;> decide

/-- CHUNK ≤ W in every legal configuration (R12). -/
theorem Chunk.bits_le_width (c : Chunk) (wd : Width) : c.bits ≤ wd.bits :=
  calc c.bits ≤ 8 := by cases c <;> decide
    _ ≤ wd.bits := by cases wd <;> decide

/-- The entry in slot `i` of the built table (R94). -/
theorem build_getElem? (poly : BitVec w) (dir : Dir) (i : BitVec c) :
    (build poly c dir)[i.toNat]? = some (generateEntry poly dir i) := by
  simp [build, List.getElem?_range i.isLt]

/-- Settles O17: each law for the forward direction, and for reverse through the mirror law. -/
theorem generatorLaws : Obligations.GeneratorLaws := by
  intro wd c poly
  have hc : c.bits ≤ wd.bits := Chunk.bits_le_width c wd
  have hmirror (p : BitVec wd.bits) (i : BitVec c.bits) := reverseEntry_eq_reverseBits_forwardEntry hc p i
  refine ⟨fun dir => ?_, forwardEntry_one poly (Chunk.bits_pos c) hc, ?_, fun dir i j => ?_, hmirror poly, fun dir i => ?_⟩
  · cases dir with
    | forward => exact forwardEntry_zero poly
    | reverse => rw [generateEntry_reverse, hmirror, reverseBits_zero, forwardEntry_zero, reverseBits_zero]
  · have htop : reverseBits (BitVec.ofNat c.bits (2 ^ (c.bits - 1))) = 1#c.bits := by
      have hpow : BitVec.ofNat c.bits (2 ^ (c.bits - 1)) = BitVec.twoPow c.bits (c.bits - 1) :=
        BitVec.eq_of_toNat_eq (by rw [BitVec.toNat_twoPow, BitVec.toNat_ofNat])
      have hpos := Chunk.bits_pos c
      rw [hpow, reverseBits_twoPow (by omega), Nat.sub_self, BitVec.twoPow_zero]
    rw [generateEntry_reverse, hmirror, htop, forwardEntry_one poly (Chunk.bits_pos c) hc]
  · cases dir with
    | forward => exact forwardEntry_xor poly i j
    | reverse => simp only [generateEntry_reverse, hmirror, reverseBits_xor, forwardEntry_xor]
  · cases dir with
    | forward => exact forwardEntry_zeroPoly hc i
    | reverse => rw [generateEntry_reverse, hmirror, forwardEntry_zeroPoly hc, reverseBits_zero]

/-- Settles O18: the length and the slots are those of `build`, the reset block holds `configTable` by definition, and
`configTable` reads neither INIT nor XOROUT. -/
theorem tableHoldsTheGeneratedEntries : Obligations.TableHoldsTheGeneratedEntries := fun _ p =>
  ⟨build_length p.poly p.chunk.bits p.dir, build_getElem? p.poly p.dir, ⟨Block.reset p, rfl, Block.reset_table p⟩,
    fun _ _ => rfl⟩

end Sys2Proof.Machine
end

section
/-! Proofs of the statements about the chunked update (spec/42_chunked_update.md). The width-equals-chunk case is
covered by the general formula. Forward, a lookup does `c` rounds of R91 at once: it folds the chunk into the top of ACC and
shifts `c` places. So one lookup of a chunk twice as wide folds its two halves, and every table size gives what the largest gives.
Reverse is forward mirrored. -/

namespace Sys2Proof.Machine

variable {w c : Nat}

/-! ### The width-equals-chunk case (R114) -/

theorem Width.bits_eq_chunk_bits_iff (wd : Width) (c : Chunk) : wd.bits = c.bits ↔ wd = .w8 ∧ c = .large := by
  cases wd <;> cases c <;> decide

/-- The general formula of R112 in every case: where W = CHUNK the shift leaves nothing of ACC. -/
theorem foldForward_eq (T : BitVec c → BitVec w) (acc : BitVec w) (v : BitVec c) :
    foldForward T acc v = (acc <<< c) ^^^ T (forwardIndex acc v) := by
  unfold foldForward
  split
  · rw [BitVec.shiftLeft_eq_zero (by omega), BitVec.zero_xor]
  · rfl

/-- The general formula of R113 in every case. -/
theorem foldReverse_eq (T : BitVec c → BitVec w) (acc : BitVec w) (v : BitVec c) :
    foldReverse T acc v = (acc >>> c) ^^^ T (reverseIndex acc v) := by
  unfold foldReverse
  split
  · rw [BitVec.ushiftRight_eq_zero (by omega), BitVec.zero_xor]
  · rfl

/-- Settles O26: the widths are compared case by case, the special case is the branch the fold takes there, and the general
formula holds in both branches. -/
theorem widthEqualsChunkCaseAgrees : Obligations.WidthEqualsChunkCaseAgrees :=
  ⟨Width.bits_eq_chunk_bits_iff, fun _ _ _ => ⟨if_pos rfl, if_pos rfl⟩,
    fun _ _ T acc v => ⟨foldForward_eq T acc v, foldReverse_eq T acc v⟩⟩

/-! ### One lookup is `c` rounds (R112, R91) -/

theorem iterate_forwardRound_xor (poly x y : BitVec w) (n : Nat) :
    (forwardRound poly)^[n] (x ^^^ y) = (forwardRound poly)^[n] x ^^^ (forwardRound poly)^[n] y :=
  (Function.Semiconj₂.iterate (forwardRound_xor poly) n).eq x y

/-- While the bits that reach the top are zero, the rounds only shift. -/
theorem iterate_forwardRound_of_getMsbD (poly r : BitVec w) {n : Nat} (hr : ∀ i < n, r.getMsbD i = false) :
    (forwardRound poly)^[n] r = r <<< n := by
  induction n with
  | zero => exact (BitVec.shiftLeft_zero r).symm
  | succ n ih =>
    have hmsb : (r <<< n).msb = false := by
      rw [BitVec.msb, BitVec.getMsbD_shiftLeft, Nat.zero_add, hr n (Nat.lt_succ_self n)]
    rw [Function.iterate_succ_apply', ih fun i hi => hr i (by omega), forwardRound, hmsb, if_neg Bool.false_ne_true,
      BitVec.shiftLeft_add]

/-- ACC is what a shift by `c` keeps of it, XOR its top `c` bits in their place. -/
theorem eq_kept_xor_top (hc : c ≤ w) (acc : BitVec w) :
    acc = (acc <<< c) >>> c ^^^ ((acc >>> (w - c)).setWidth c).setWidth w <<< (w - c) :=
  BitVec.eq_of_getLsbD_eq fun i hi => by
    simp only [BitVec.getLsbD_xor, BitVec.getLsbD_ushiftRight, BitVec.getLsbD_shiftLeft, BitVec.getLsbD_setWidth, hi]
    rcases Nat.lt_or_ge i (w - c) with hkept | htop
    · grind
    · grind

/-- A shift by `c` does not see the top `c` bits. -/
theorem kept_shiftLeft (acc : BitVec w) (c : Nat) : ((acc <<< c) >>> c) <<< c = acc <<< c :=
  BitVec.eq_of_getLsbD_eq fun i hi => by
    simp only [BitVec.getLsbD_ushiftRight, BitVec.getLsbD_shiftLeft]
    grind

/-- `c` rounds shift ACC by `c` places and XOR in the entry of the bits shifted out. -/
theorem iterate_forwardRound_eq (hc : c ≤ w) (poly acc : BitVec w) :
    (forwardRound poly)^[c] acc = (acc <<< c) ^^^ forwardEntry poly ((acc >>> (w - c)).setWidth c) := by
  have hkept : (forwardRound poly)^[c] ((acc <<< c) >>> c) = acc <<< c := by
    rw [iterate_forwardRound_of_getMsbD poly _ (by simp +contextual), kept_shiftLeft]
  conv_lhs => rw [eq_kept_xor_top hc acc, iterate_forwardRound_xor, hkept]
  rfl

/-- A forward lookup of the generated table: the chunk goes into the top of ACC, then `c` rounds (R91, R112). -/
theorem foldForward_generateEntry (hc : c ≤ w) (poly acc : BitVec w) (v : BitVec c) :
    foldForward (generateEntry poly .forward) acc v = (forwardRound poly)^[c] (acc ^^^ v.setWidth w <<< (w - c)) := by
  rw [foldForward_eq, generateEntry_forward, forwardIndex, forwardEntry_xor, iterate_forwardRound_xor,
    iterate_forwardRound_eq hc poly acc, BitVec.xor_assoc]
  rfl

/-! ### One lookup of a chunk twice as wide (R116) -/

/-- Two half chunks side by side at the top: the high one at the top, the low one `c` places below it. -/
theorem append_setWidth_shiftLeft (hc : c + c ≤ w) (x y : BitVec c) :
    (x ++ y).setWidth w <<< (w - (c + c)) = x.setWidth w <<< (w - c) ^^^ y.setWidth w <<< (w - (c + c)) :=
  BitVec.eq_of_getLsbD_eq fun i hi => by
    simp only [BitVec.getLsbD_xor, BitVec.getLsbD_shiftLeft, BitVec.getLsbD_setWidth, BitVec.getLsbD_append, hi]
    rcases Nat.lt_or_ge i (w - c) with hlow | hhigh
    · grind
    · have hnone : y.getLsbD (i - (w - (c + c))) = false := BitVec.getLsbD_of_ge y _ (by omega)
      grind

/-- The low half chunk reaches the top as the high one is shifted out. -/
theorem iterate_forwardRound_lowHalf (hc : c + c ≤ w) (poly : BitVec w) (y : BitVec c) :
    (forwardRound poly)^[c] (y.setWidth w <<< (w - (c + c))) = y.setWidth w <<< (w - c) := by
  have hplace : w - (c + c) + c = w - c := by omega
  rw [iterate_forwardRound_of_getMsbD poly _ fun i hi => ?_, ← BitVec.shiftLeft_add, hplace]
  have habove : ¬ w ≤ i + (w - (c + c)) + c := by omega
  simp [habove]

/-- Forward, one lookup of a chunk twice as wide folds its high half, then its low half. -/
theorem foldForward_append (hc : c + c ≤ w) (poly acc : BitVec w) (x y : BitVec c) :
    foldForward (generateEntry poly .forward) acc (x ++ y) =
      foldForward (generateEntry poly .forward) (foldForward (generateEntry poly .forward) acc x) y := by
  have hc' : c ≤ w := by omega
  rw [foldForward_generateEntry hc, foldForward_generateEntry hc', foldForward_generateEntry hc',
    append_setWidth_shiftLeft hc, ← BitVec.xor_assoc, Function.iterate_add_apply, iterate_forwardRound_xor poly _ _ c,
    iterate_forwardRound_lowHalf hc]

/-- The top bits of a mirrored word are its low bits mirrored. -/
theorem reverseBits_ushiftRight_setWidth (hc : c ≤ w) (acc : BitVec w) :
    (reverseBits acc >>> (w - c)).setWidth c = reverseBits (acc.setWidth c) :=
  BitVec.eq_of_getLsbD_eq fun i hi => by
    have hpos : w - c + i = i + w - c := by omega
    have hin : c - w ≤ i := by omega
    simp only [BitVec.getLsbD_setWidth, BitVec.getLsbD_ushiftRight, reverseBits_getLsbD, BitVec.getMsbD_setWidth, hi,
      hpos, hin]

/-- The reverse index is the forward one mirrored (R112, R113). -/
theorem reverseBits_forwardIndex (hc : c ≤ w) (acc : BitVec w) (v : BitVec c) :
    reverseBits (forwardIndex (reverseBits acc) (reverseBits v)) = reverseIndex acc v := by
  rw [forwardIndex, reverseBits_ushiftRight_setWidth hc, ← reverseBits_xor, reverseBits_reverseBits, reverseIndex]

/-- A reverse lookup is a forward lookup mirrored: ACC, chunk and result. -/
theorem foldReverse_generateEntry (hc : c ≤ w) (poly acc : BitVec w) (v : BitVec c) :
    foldReverse (generateEntry poly .reverse) acc v =
      reverseBits (foldForward (generateEntry poly .forward) (reverseBits acc) (reverseBits v)) := by
  rw [foldReverse_eq, foldForward_eq, reverseBits_xor, reverseBits_shiftLeft, reverseBits_reverseBits,
    generateEntry_reverse, generateEntry_forward, reverseEntry_eq_reverseBits_forwardEntry hc,
    ← reverseBits_forwardIndex hc, reverseBits_reverseBits]

theorem reverseBits_append (x y : BitVec c) : reverseBits (x ++ y) = reverseBits y ++ reverseBits x :=
  BitVec.eq_of_getLsbD_eq fun i hi => by
    simp only [reverseBits_getLsbD, BitVec.getMsbD_append, BitVec.getLsbD_append, ← Nat.not_lt, ite_not]

/-- Reverse, one lookup of a chunk twice as wide folds its low half, then its high half. -/
theorem foldReverse_append (hc : c + c ≤ w) (poly acc : BitVec w) (x y : BitVec c) :
    foldReverse (generateEntry poly .reverse) acc (x ++ y) =
      foldReverse (generateEntry poly .reverse) (foldReverse (generateEntry poly .reverse) acc y) x := by
  have hc' : c ≤ w := by omega
  rw [foldReverse_generateEntry hc, reverseBits_append, foldForward_append hc, foldReverse_generateEntry hc',
    foldReverse_generateEntry hc', reverseBits_reverseBits]

/-- Each half of a byte is its two 2-bit chunks, the more significant first (R111). -/
theorem append_extractLsb'_tiny (byte : Byte) :
    byte.extractLsb' 6 2 ++ byte.extractLsb' 4 2 = byte.extractLsb' 4 4 ∧
    byte.extractLsb' 2 2 ++ byte.extractLsb' 0 2 = byte.extractLsb' 0 4 :=
  ⟨BitVec.extractLsb'_append_extractLsb'_eq_extractLsb' rfl, BitVec.extractLsb'_append_extractLsb'_eq_extractLsb' rfl⟩

/-- A byte is its two 4-bit chunks, the more significant first (R111). -/
theorem append_extractLsb'_small (byte : Byte) : byte.extractLsb' 4 4 ++ byte.extractLsb' 0 4 = byte.extractLsb' 0 8 :=
  BitVec.extractLsb'_append_extractLsb'_eq_extractLsb' rfl

/-- Two lookups of 4-bit chunks give what one lookup of the byte gives, in both directions. -/
theorem updateByte_small_eq_large (hw : 8 ≤ w) (poly : BitVec w) (dir : Dir) (acc : BitVec w) (byte : Byte) :
    updateByte (generateEntry poly dir : BitVec 4 → BitVec w) dir acc byte =
      updateByte (generateEntry poly dir : BitVec 8 → BitVec w) dir acc byte := by
  have hbyte := append_extractLsb'_small byte
  cases dir with
  | forward =>
    rw [updateByte_forward_small, ← foldForward_append hw, hbyte]
    exact (updateByte_forward_large ..).symm
  | reverse =>
    rw [updateByte_reverse_small, ← foldReverse_append hw, hbyte]
    exact (updateByte_reverse_large ..).symm

/-- Four lookups of 2-bit chunks give what two lookups of 4-bit chunks give, in both directions. -/
theorem updateByte_tiny_eq_small (hw : 4 ≤ w) (poly : BitVec w) (dir : Dir) (acc : BitVec w) (byte : Byte) :
    updateByte (generateEntry poly dir : BitVec 2 → BitVec w) dir acc byte =
      updateByte (generateEntry poly dir : BitVec 4 → BitVec w) dir acc byte := by
  obtain ⟨hhigh, hlow⟩ := append_extractLsb'_tiny byte
  cases dir with
  | forward =>
    rw [updateByte_forward_tiny, ← foldForward_append hw, ← foldForward_append hw, hhigh, hlow]
    exact (updateByte_forward_small ..).symm
  | reverse =>
    rw [updateByte_reverse_tiny, ← foldReverse_append hw, ← foldReverse_append hw, hhigh, hlow]
    exact (updateByte_reverse_small ..).symm

/-- Every table size gives what the largest gives. -/
theorem updateByte_generateEntry_eq_large (hw : 8 ≤ w) (c : Chunk) (poly : BitVec w) (dir : Dir) (acc : BitVec w)
    (byte : Byte) :
    updateByte (generateEntry poly dir : BitVec c.bits → BitVec w) dir acc byte =
      updateByte (generateEntry poly dir : BitVec 8 → BitVec w) dir acc byte := by
  cases c with
  | tiny =>
    exact (updateByte_tiny_eq_small (by omega) poly dir acc byte).trans (updateByte_small_eq_large hw poly dir acc byte)
  | small => exact updateByte_small_eq_large hw poly dir acc byte
  | large => rfl

/-- R116 for the update as a function of ACC and byte. -/
theorem updateByte_entryOf_chunk (hw : 8 ≤ w) (p : Params w) (c : Chunk) :
    updateByte (entryOf { p with chunk := c }) p.dir = updateByte (entryOf p) p.dir :=
  funext fun acc => funext fun byte =>
    (updateByte_generateEntry_eq_large hw c p.poly p.dir acc byte).trans
      (updateByte_generateEntry_eq_large hw p.chunk p.poly p.dir acc byte).symm

/-- R116 for a message: it is folded by the same update. -/
theorem foldMessage_chunk (hw : 8 ≤ w) (p : Params w) (c : Chunk) (acc : BitVec w) (message : List Byte) :
    foldMessage { p with chunk := c } acc message = foldMessage p acc message :=
  congrArg (fun update => message.foldl update acc) (updateByte_entryOf_chunk hw p c)

/-- Settles O32: the update is the same function under both table sizes, the fold of a message follows, and the last XOR
reads XOROUT alone. -/
theorem tableSizeDoesNotChangeTheResult : Obligations.TableSizeDoesNotChangeTheResult := by
  intro wd p c acc
  have hw : 8 ≤ wd.bits := Chunk.bits_le_width .large wd
  have hmessage := foldMessage_chunk hw p c acc
  refine ⟨fun byte => ?_, fun message => ⟨hmessage message, ?_⟩⟩
  · rw [updateByte_entryOf_chunk hw p c]
  · rw [hmessage message]
    rfl

end Sys2Proof.Machine
end

section
/-! What the decoder answers on the words of CRC.RESET, CRC.FINAL and CRC.UPDATE (spec/30_encoding.md R63, R65), and which
answers stand for words that leave ACC. -/

namespace Sys2Proof

variable {c : Chunk} {cmd : CmdWord} {i : Instr}

theorem decode_of_opField_reset (hop : opField cmd = 0x1#4) (hrsv : rsvField cmd = 0x0#4) :
    decode c cmd = withZeroImm8 (imm8Field cmd) .reset := by
  simp [decode, hop, hrsv]

theorem decode_of_opField_final (hop : opField cmd = 0x3#4) (hrsv : rsvField cmd = 0x0#4) :
    decode c cmd = withZeroImm8 (imm8Field cmd) .final := by
  simp [decode, hop, hrsv]

/-- `decode_of_zeroImm8` with the OP value given: its one legal word is then a constant. -/
theorem decode_of_zeroImm8_of_opField {op : BitVec 4} (hop : opField cmd = op)
    (h : rsvField cmd = 0x0#4 → decode c cmd = withZeroImm8 (imm8Field cmd) i) :
    (cmd = commandWord op 0x00#8 ∧ decode c cmd = .command i) ∨
    (cmd ≠ commandWord op 0x00#8 ∧ ∃ why, decode c cmd = .illegal why) :=
  hop ▸ decode_of_zeroImm8 h

theorem decode_encode_final (c : Chunk) : decode c (encode .final) = .command .final := by
  simp [decode, encode, withZeroImm8, Laws.EncodedFields.commandWord_rsv, Laws.EncodedFields.commandWord_op,
    Laws.EncodedFields.commandWord_imm8]

theorem decode_encode_update (c : Chunk) (byte : Byte) : decode c (encode (.update byte)) = .command (.update byte) := by
  simp [decode, encode, Laws.EncodedFields.commandWord_rsv, Laws.EncodedFields.commandWord_op,
    Laws.EncodedFields.commandWord_imm8]

/-- What a word decodes to when it does not write ACC: neither CRC.RESET nor CRC.UPDATE (spec/10_state.md R21). -/
def Decoded.LeavesAcc (d : Decoded) : Prop := d ≠ .command .reset ∧ ∀ byte, d ≠ .command (.update byte)

end Sys2Proof
end

section
/-! What a step does with a word that has arrived while TABLE is complete (spec/20_memory.md R48, spec/60_exceptions.md R152),
and which words leave ACC as it is (spec/10_state.md R21). -/

namespace Sys2Proof.Machine

variable {wd : Width} {b : Block wd.bits} {cmd : CmdWord} {x : BitVec wd.bits} {rest : List (Input wd.bits)}

theorem Block.nextEvent_of_command (hready : b.tableReady = true) (hin : b.inputs = .command cmd x :: rest) :
    b.nextEvent = .accept cmd x rest := by
  simp [Block.nextEvent, hin, hready]

theorem step_of_command {i : Instr} (hready : b.tableReady = true) (hin : b.inputs = .command cmd x :: rest)
    (hdec : decode b.params.chunk cmd = .command i) :
    step ⟨wd, b⟩ = exec i ⟨wd, b.acceptCommand x rest⟩ := by
  simp only [step, Block.nextEvent_of_command hready hin, hdec, State.setBlock_mk]

theorem step_of_illegal {why : IllegalWord} (hready : b.tableReady = true) (hin : b.inputs = .command cmd x :: rest)
    (hdec : decode b.params.chunk cmd = .illegal why) :
    step ⟨wd, b⟩ = .next ⟨wd, (b.acceptCommand x rest).raiseIllegalCommand⟩ := by
  simp only [step, Block.nextEvent_of_command hready hin, hdec, State.setBlock_mk]

/-- Of the commands only CRC.RESET and CRC.UPDATE write ACC (R21). -/
theorem CommandEffect.acc_eq {w : Nat} {b b' : Block w} {i : Instr} (h : CommandEffect b i b')
    (hleaves : Decoded.LeavesAcc (.command i)) : b'.acc = b.acc := by
  obtain ⟨hreset, hupdate⟩ := hleaves
  cases h with
  | reset => exact absurd rfl hreset
  | update byte => exact absurd rfl (hupdate byte)
  | final | tread | treadOutOfRange | rev => simp

/-- The configuration, TABLE and ACC of two blocks are the same. -/
structure Block.SameRegisters {w : Nat} (b b' : Block w) : Prop where
  params : b'.params = b.params
  table : b'.table = b.table
  acc : b'.acc = b.acc

theorem Block.SameRegisters.trans {w : Nat} {b b' b'' : Block w} (h : b.SameRegisters b') (h' : b'.SameRegisters b'') :
    b.SameRegisters b'' :=
  ⟨h'.params.trans h.params, h'.table.trans h.table, h'.acc.trans h.acc⟩

theorem Block.SameRegisters.tableReady_eq {w : Nat} {b b' : Block w} (h : b.SameRegisters b') :
    b'.tableReady = b.tableReady := by
  simp only [Block.tableReady, h.params, h.table]

/-- A word that leaves ACC is taken in one step, which leaves every register. -/
theorem exists_step_of_leavesAcc (hready : b.tableReady = true) (hin : b.inputs = .command cmd x :: rest)
    (hleaves : (decode b.params.chunk cmd).LeavesAcc) :
    ∃ b', step ⟨wd, b⟩ = .next ⟨wd, b'⟩ ∧ b.SameRegisters b' ∧ b'.inputs = rest := by
  cases hdec : decode b.params.chunk cmd with
  | illegal why => exact ⟨_, step_of_illegal hready hin hdec, ⟨rfl, rfl, rfl⟩, rfl⟩
  | command i =>
    obtain ⟨t, ht⟩ := exec_answers_next i ⟨wd, b.acceptCommand x rest⟩ hready
    obtain ⟨b', rfl, heffect⟩ := exec_next_inv ht
    obtain ⟨hparams, htable, hinputs, -⟩ := heffect.frame
    have hacc := heffect.acc_eq (hdec ▸ hleaves)
    exact ⟨b', (step_of_command hready hin hdec).trans ht, ⟨hparams, htable, hacc⟩, hinputs⟩

/-- Any number of words that leave ACC are taken in as many steps, which leave every register. -/
theorem exists_run_of_leavesAcc (sent : List (CmdWord × BitVec wd.bits)) (k : Nat) (hready : b.tableReady = true)
    (hleaves : ∀ c ∈ sent, (decode b.params.chunk c.1).LeavesAcc)
    (hin : b.inputs = sent.map (fun c => Input.command c.1 c.2) ++ rest) :
    ∃ b', run (sent.length + k) ⟨wd, b⟩ = run k ⟨wd, b'⟩ ∧ b.SameRegisters b' ∧ b'.inputs = rest := by
  induction sent generalizing b with
  | nil => exact ⟨b, by rw [List.length_nil, Nat.zero_add], ⟨rfl, rfl, rfl⟩, hin⟩
  | cons c sent ih =>
    obtain ⟨hc, hsent⟩ := List.forall_mem_cons.mp hleaves
    obtain ⟨b₁, hstep, hsame, hin₁⟩ := exists_step_of_leavesAcc hready hin hc
    obtain ⟨b', hrun, hsame', hin'⟩ := ih (hsame.tableReady_eq.trans hready) (hsame.params ▸ hsent) hin₁
    refine ⟨b', ?_, hsame.trans hsame', hin'⟩
    rw [List.length_cons, Nat.add_right_comm, run_succ_of_next hstep, hrun]

end Sys2Proof.Machine
end

section
/-! Proofs of the statements about accumulator control (spec/43_engine.md). -/

namespace Sys2Proof.Machine

/-- CRC.RESET answers in every state (R132). -/
theorem exec_reset (s : State) :
    exec .reset s = .next (s.setBlock (s.block.writeAcc (initAdj s.block.params)).respondNone) := rfl

/-- CRC.FINAL answers in every state (R133). -/
theorem exec_final (s : State) :
    exec .final s = .next (s.setBlock (s.block.respondValue (s.block.acc ^^^ s.block.params.xorout))) := rfl

/-- With TABLE built, CRC.UPDATE folds its byte with the generated entries (R117). -/
theorem exec_update_of_built {s : State} (h : s.block.TableBuilt) (byte : Byte) :
    exec (.update byte) s = .next (s.setBlock
      (s.block.writeAcc (updateByte (entryOf s.block.params) s.block.params.dir s.block.acc byte)).respondNone) := by
  simp only [exec, execUpdate, Block.tableRead?_of_built h, byteOperand]

/-- A palindromic INIT is its own INIT_ADJ in both directions (R132). -/
theorem initAdj_of_palindrome {w : Nat} {p : Params w} (h : reverseBits p.init = p.init) : initAdj p = p.init := by
  rw [initAdj_eq, h, ite_self]

/-- Settles O33: the command's one outcome with INIT_ADJ in the rule's own form, the only word of OP = 0x1 with RSV and IMM8
zero, and the two forms of INIT_ADJ on the rule's values. -/
theorem resetRestoresTheInitialValue : Obligations.ResetRestoresTheInitialValue := by
  refine ⟨fun wd b => ?_, fun c cmd hop => ?_, fun wd p => initAdj_of_palindrome, fun p hinit => ?_⟩
  · rw [← initAdj_eq]
    exact exec_reset ⟨wd, b⟩
  · exact decode_of_zeroImm8_of_opField hop (decode_of_opField_reset hop)
  · have hrev : reverseBits 0xB2AA#16 = 0x554D#16 := by decide
    rw [initAdj_eq, hinit, hrev]

/-- Settles O34: the command's one outcome, also from the state after reset, the only word of OP = 0x3 with RSV and IMM8
zero, XOR with no bits and with all bits, and the worked example by evaluation. -/
theorem finalRespondsWithTheChecksum : Obligations.FinalRespondsWithTheChecksum := by
  refine ⟨fun wd b => exec_final ⟨wd, b⟩, fun c cmd hop => ?_, fun wd acc => ⟨BitVec.xor_zero, ?_⟩,
    fun wd p => exec_final (State.resetOf ⟨wd, p⟩), by decide⟩
  · exact decode_of_zeroImm8_of_opField hop (decode_of_opField_final hop)
  · rw [ofNat_mask, BitVec.xor_allOnes]

section arrived
variable {wd : Width} {b : Block wd.bits} {x : BitVec wd.bits} {rest : List (Input wd.bits)}

/-- The step that takes CRC.FINAL. -/
theorem step_final (hready : b.tableReady = true) (hin : b.inputs = .command 0x3000#16 x :: rest) :
    step ⟨wd, b⟩ = .next ⟨wd, (b.acceptCommand x rest).respondValue (b.acc ^^^ b.params.xorout)⟩ :=
  step_of_command hready hin (decode_encode_final _)

/-- The step that takes CRC.FINAL leaves every register, and answers from them. -/
theorem exists_step_final (hready : b.tableReady = true) (hin : b.inputs = .command 0x3000#16 x :: rest) :
    ∃ b', step ⟨wd, b⟩ = .next ⟨wd, b'⟩ ∧ b.SameRegisters b' ∧ b'.inputs = rest ∧
      b'.response = some ⟨.value, b.acc ^^^ b.params.xorout⟩ :=
  ⟨_, step_final hready hin, ⟨rfl, rfl, rfl⟩, rfl, rfl⟩

/-- The step that takes CRC.UPDATE with TABLE built. -/
theorem step_update {byte : Byte} (hbuilt : b.TableBuilt) (hin : b.inputs = .command (encode (.update byte)) x :: rest) :
    step ⟨wd, b⟩ = .next ⟨wd, ((b.acceptCommand x rest).writeAcc
      (updateByte (entryOf b.params) b.params.dir b.acc byte)).respondNone⟩ :=
  (step_of_command (Block.tableReady_of_built hbuilt) hin (decode_encode_update _ byte)).trans
    (exec_update_of_built (s := ⟨wd, b.acceptCommand x rest⟩) hbuilt byte)

end arrived

/-- Settles O35: the first CRC.FINAL and the words after it leave every register, so the second one answers from the
same ACC; and the two updates read the same registers and write over the response, in which alone their states differ. -/
theorem finalHasNoSideEffects : Obligations.FinalHasNoSideEffects := by
  intro wd b x y rest hbuilt
  have hready := Block.tableReady_of_built hbuilt
  refine ⟨fun between hleaves hin => ?_, fun byte => ?_⟩
  · obtain ⟨b₁, hfirst, hsame₁, hin₁, hvalue₁⟩ := exists_step_final hready hin
    obtain ⟨b', hbetween, hsame, hin'⟩ := exists_run_of_leavesAcc between 1 (hsame₁.tableReady_eq.trans hready)
      (hsame₁.params ▸ hleaves) hin₁
    have hsame' := hsame₁.trans hsame
    obtain ⟨b₂, hsecond, hsame₂, -, hvalue₂⟩ := exists_step_final (hsame'.tableReady_eq.trans hready) hin'
    refine ⟨b₁, b₂, run_succ_of_next hfirst, ?_, hvalue₁, ?_, hsame₁.acc, (hsame'.trans hsame₂).acc⟩
    · rw [run_succ_of_next hfirst, hbetween, run_succ_of_next hsecond, run_zero]
    · rw [hvalue₂, hvalue₁, hsame'.acc, hsame'.params]
  · calc run 2 ⟨wd, { b with inputs := .command 0x3000#16 x :: .command (encode (.update byte)) y :: rest }⟩
      _ = run 1 _ := run_succ_of_next (step_final hready rfl)
      _ = run 0 _ := run_succ_of_next (step_update hbuilt rfl)
      _ = run 1 ⟨wd, { b with inputs := .command (encode (.update byte)) y :: rest }⟩ :=
        Eq.symm (run_succ_of_next (step_update hbuilt rfl))

end Sys2Proof.Machine
end

section
/-! Proofs of the statements about building a block (spec/60_exceptions.md R151). Each legal value of W, CHUNK and DIR is
the value of one constructor, so the parameter values that pass `config_ok` are those some `Config` stands for, and the
elaborator gives that `Config` back. -/

namespace Sys2Proof.Machine

/-! ### The legal values (R10, R12, R23) -/

theorem widthOf_bits (wd : Width) : widthOf wd.bits = some wd := by
  cases wd <;> rfl

theorem chunkOf_bits (c : Chunk) : chunkOf c.bits = some c := by
  cases c <;> rfl

theorem dirOf_code (d : Dir) : dirOf d.code = some d := by
  cases d <;> rfl

theorem exists_width_bits_eq_iff {n : Nat} : (∃ wd : Width, wd.bits = n) ↔ n = 8 ∨ n = 16 ∨ n = 32 ∨ n = 64 := by
  constructor
  · rintro ⟨wd, rfl⟩
    cases wd <;> decide
  · rintro (rfl | rfl | rfl | rfl)
    exacts [⟨.w8, rfl⟩, ⟨.w16, rfl⟩, ⟨.w32, rfl⟩, ⟨.w64, rfl⟩]

theorem exists_chunk_bits_eq_iff {n : Nat} : (∃ c : Chunk, c.bits = n) ↔ n = 2 ∨ n = 4 ∨ n = 8 := by
  constructor
  · rintro ⟨c, rfl⟩
    cases c <;> decide
  · rintro (rfl | rfl | rfl)
    exacts [⟨.tiny, rfl⟩, ⟨.small, rfl⟩, ⟨.large, rfl⟩]

theorem exists_dir_code_eq_iff {n : Nat} : (∃ d : Dir, d.code = n) ↔ n = 0 ∨ n = 1 := by
  constructor
  · rintro ⟨d, rfl⟩
    cases d <;> decide
  · rintro (rfl | rfl)
    exacts [⟨.forward, rfl⟩, ⟨.reverse, rfl⟩]

/-! ### Which parameter values pass -/

/-- `config_ok` in the rule's own words (R151). -/
theorem configOk_iff {r : RawConfig} : r.configOk = true ↔
    (r.w = 8 ∨ r.w = 16 ∨ r.w = 32 ∨ r.w = 64) ∧ (r.chunk = 2 ∨ r.chunk = 4 ∨ r.chunk = 8) ∧
    r.poly < 2 ^ r.w ∧ r.init < 2 ^ r.w ∧ r.xorout < 2 ^ r.w ∧ (r.dir = 0 ∨ r.dir = 1) := by
  simp only [RawConfig.configOk, Bool.and_eq_true, Bool.or_eq_true, beq_iff_eq, decide_eq_true_eq, and_assoc, or_assoc]

/-- A configuration stands for values that pass. -/
theorem configOk_rawOf (cfg : Config) : (rawOf cfg).configOk = true :=
  configOk_iff.mpr ⟨exists_width_bits_eq_iff.mp ⟨_, rfl⟩, exists_chunk_bits_eq_iff.mp ⟨_, rfl⟩,
    BitVec.isLt _, BitVec.isLt _, BitVec.isLt _, exists_dir_code_eq_iff.mp ⟨_, rfl⟩⟩

/-- Values that pass are those of a configuration: each of POLY, INIT and XOROUT is a W-bit value. -/
theorem exists_rawOf_eq {r : RawConfig} (hok : r.configOk = true) : ∃ cfg, rawOf cfg = r := by
  obtain ⟨w, poly, init, xorout, dir, chunk⟩ := r
  obtain ⟨hw, hchunk, hpoly, hinit, hxorout, hdir⟩ := configOk_iff.mp hok
  obtain ⟨wd, rfl⟩ := exists_width_bits_eq_iff.mpr hw
  obtain ⟨c, rfl⟩ := exists_chunk_bits_eq_iff.mpr hchunk
  obtain ⟨d, rfl⟩ := exists_dir_code_eq_iff.mpr hdir
  exact ⟨⟨wd, ⟨⟨poly, hpoly⟩, ⟨init, hinit⟩, ⟨xorout, hxorout⟩, d, c⟩⟩, rfl⟩

/-! ### What the elaborator gives -/

theorem elaborate_rawOf (cfg : Config) : elaborate (rawOf cfg) = some cfg := by
  rw [elaborate, if_pos (configOk_rawOf cfg)]
  simp [rawOf, widthOf_bits, dirOf_code, chunkOf_bits]

theorem elaborate_of_not_configOk {r : RawConfig} (hbad : r.configOk = false) : elaborate r = none := by
  simp [elaborate, hbad]

theorem construct_rawOf (cfg : Config) : construct (rawOf cfg) = .next (State.resetOf cfg) := by
  rw [construct, elaborate_rawOf]

theorem construct_of_not_configOk {r : RawConfig} (hbad : r.configOk = false) :
    construct r = .refused .illegalConfiguration := by
  rw [construct, elaborate_of_not_configOk hbad]

/-- Settles O53: values that pass are those of a configuration, from which the elaborator builds the block; others give
nothing. -/
theorem onlyLegalConfigurationsGiveABlock : Obligations.OnlyLegalConfigurationsGiveABlock := by
  refine fun r => ⟨configOk_iff, fun hok => ?_, construct_of_not_configOk⟩
  obtain ⟨cfg, rfl⟩ := exists_rawOf_eq hok
  exact ⟨cfg, rfl, construct_rawOf cfg⟩

end Sys2Proof.Machine
end

section
/-! The decoder and the encoder are each other's inverse (spec/30_encoding.md R63, R64). A word is its OP field times 0x1000
plus its IMM8 field wherever RSV is zero, and a row of the opcode table compares the bits above a place, so what the rows
match is arithmetic. -/

namespace Sys2Proof

variable {c : Chunk} {cmd : CmdWord} {i : Instr}

/-! ### What the decoder answers on the words of R63 -/

theorem decode_encode_reset (c : Chunk) : decode c (encode .reset) = .command .reset :=
  decode_of_opField_reset (by decide) (by decide)

theorem decode_encode_rev (c : Chunk) : decode c (encode .rev) = .command .rev :=
  decode_of_opField_rev (by decide) (by decide)

theorem decode_of_opField_update (hop : opField cmd = 0x2#4) (hrsv : rsvField cmd = 0x0#4) :
    decode c cmd = .command (.update (imm8Field cmd)) := by
  simp [decode, hop, hrsv]

theorem decode_of_opField_tread (hop : opField cmd = 0x4#4) (hrsv : rsvField cmd = 0x0#4) :
    decode c cmd = decodeTread c (imm8Field cmd) := by
  simp [decode, hop, hrsv]

@[simp] theorem Instr.wf_tread {index : Byte} : (Instr.tread index).wf c = true ↔ index.toNat < c.entries :=
  decide_eq_true_iff

theorem decode_encode_tread {index : Byte} (hindex : index.toNat < c.entries) :
    decode c (encode (.tread index)) = .command (.tread index) := by
  rw [encode, decode_of_opField_tread (Laws.EncodedFields.commandWord_op ..) (Laws.EncodedFields.commandWord_rsv ..),
    Laws.EncodedFields.commandWord_imm8, decodeTread, if_pos hindex]

/-- Settles O3: each command's word has its own OP, RSV = 0 and its operand in IMM8, so the decoder takes that OP's branch; an
index in range passes its check. -/
theorem decodeEncodeRoundTrip : Obligations.DecodeEncodeRoundTrip := by
  intro c i hwf
  cases i with
  | reset => exact decode_encode_reset c
  | update byte => exact decode_encode_update c byte
  | final => exact decode_encode_final c
  | tread index => exact decode_encode_tread (Instr.wf_tread.mp hwf)
  | rev => exact decode_encode_rev c

/-! ### A legal word is its command's own word -/

/-- A word with RSV = 0 is fixed by its OP and IMM8 fields. -/
theorem eq_commandWord_of_rsvField_zero (hrsv : rsvField cmd = 0x0#4) : cmd = commandWord (opField cmd) (imm8Field cmd) := by
  have hfields := opField_append_rsvField_append_imm8Field cmd
  rw [hrsv] at hfields
  exact hfields.symm

theorem withZeroImm8_eq_command_iff {imm : Byte} {j : Instr} : withZeroImm8 imm j = .command i ↔ imm = 0x00#8 ∧ j = i := by
  unfold withZeroImm8
  split <;> simp [*]

theorem decodeTread_eq_command_iff {index : Byte} :
    decodeTread c index = .command i ↔ index.toNat < c.entries ∧ .tread index = i := by
  unfold decodeTread
  split <;> simp [*]

/-- Settles O4: a word that decodes to a command has RSV = 0, so it is made of its OP and IMM8 fields; in the branch of each OP
they are those of the command, and the checks of the branch are its well-formedness. -/
theorem legalWordIsItsCommandsEncoding : Obligations.LegalWordIsItsCommandsEncoding := by
  intro c cmd i hdec
  unfold decode at hdec
  split at hdec
  · cases hdec
  · next hrsv =>
    rw [eq_commandWord_of_rsvField_zero (not_not.mp hrsv)]
    split at hdec <;> rename_i hop
    · obtain ⟨himm, rfl⟩ := withZeroImm8_eq_command_iff.mp hdec
      rw [BitVec.eq_of_toNat_eq (y := 0x1#4) hop, himm]
      exact ⟨rfl, rfl⟩
    · cases hdec
      rw [BitVec.eq_of_toNat_eq (y := 0x2#4) hop]
      exact ⟨rfl, rfl⟩
    · obtain ⟨himm, rfl⟩ := withZeroImm8_eq_command_iff.mp hdec
      rw [BitVec.eq_of_toNat_eq (y := 0x3#4) hop, himm]
      exact ⟨rfl, rfl⟩
    · obtain ⟨hindex, rfl⟩ := decodeTread_eq_command_iff.mp hdec
      rw [BitVec.eq_of_toNat_eq (y := 0x4#4) hop]
      exact ⟨rfl, Instr.wf_tread.mpr hindex⟩
    · obtain ⟨himm, rfl⟩ := withZeroImm8_eq_command_iff.mp hdec
      rw [BitVec.eq_of_toNat_eq (y := 0x5#4) hop, himm]
      exact ⟨rfl, rfl⟩
    · cases hdec

/-- The decoder, turned round: the words of a well-formed command are its encoding alone. -/
theorem decode_eq_command_iff : decode c cmd = .command i ↔ cmd = encode i ∧ i.wf c = true := by
  constructor
  · intro hdec
    obtain ⟨hword, hwf⟩ := legalWordIsItsCommandsEncoding c cmd i hdec
    exact ⟨hword.symm, hwf⟩
  · rintro ⟨rfl, hwf⟩
    exact decodeEncodeRoundTrip c i hwf

/-! ### The rows of the opcode table -/

theorem commandWord_toNat (op : BitVec 4) (imm : Byte) : (commandWord op imm).toNat = op.toNat * 0x1000 + imm.toNat := by
  have hhigh : (op ++ 0x0#4).toNat = op.toNat * 0x10 := by
    rw [BitVec.toNat_append, BitVec.toNat_ofNat, Nat.zero_mod, Nat.or_zero, Nat.shiftLeft_eq]
  rw [commandWord, BitVec.toNat_append, hhigh, ← Nat.shiftLeft_add_eq_or_of_lt imm.isLt, Nat.shiftLeft_eq]
  omega

/-- CRC.TREAD's mask keeps the bits above the index. -/
theorem treadMask_eq (c : Chunk) : treadMask c = BitVec.allOnes 16 <<< c.bits := by
  cases c <;> rfl

theorem and_treadMask_toNat (c : Chunk) (cmd : CmdWord) :
    (cmd &&& treadMask c).toNat = cmd.toNat / 2 ^ c.bits * 2 ^ c.bits := by
  have hfits : cmd.toNat / 2 ^ c.bits * 2 ^ c.bits < 2 ^ 16 := (Nat.div_mul_le_self ..).trans_lt cmd.isLt
  rw [treadMask_eq, ← BitVec.shiftLeft_ushiftRight, BitVec.toNat_shiftLeft, BitVec.toNat_ushiftRight, Nat.shiftRight_eq_div_pow,
    Nat.shiftLeft_eq, Nat.mod_eq_of_lt hfits]

/-- A word matches a row with an operand exactly when it is the word of that operand, and the operand fits. CRC.UPDATE's mask
is that of the large table, where every byte fits. -/
theorem and_treadMask_eq_iff (c : Chunk) (op : BitVec 4) (imm : Byte) :
    cmd &&& treadMask c = commandWord op 0x00#8 ∧ imm = cmd.setWidth 8 ↔ cmd = commandWord op imm ∧ imm.toNat < c.entries := by
  simp only [← BitVec.toNat_inj, and_treadMask_toNat, commandWord_toNat, BitVec.toNat_setWidth, Chunk.entries]
  have himm := imm.isLt
  cases c <;> simp only [Chunk.bits, BitVec.toNat_ofNat] <;> omega

theorem and_allOnes_eq_iff {word : CmdWord} : cmd &&& 0xFFFF#16 = word ↔ cmd = word :=
  (BitVec.and_allOnes (x := cmd)).symm ▸ Iff.rfl

theorem encode_toNat_bounds (i : Instr) : 0x1000 ≤ (encode i).toNat ∧ (encode i).toNat < 0x6000 := by
  cases i <;> simp only [encode, commandWord_toNat, BitVec.toNat_ofNat] <;> omega

/-- Outside the words of R63 there is none that decodes to a command. -/
theorem exists_illegal_of_forall_ne (h : ∀ i, cmd ≠ encode i) : ∃ why, decode c cmd = .illegal why := by
  cases hdec : decode c cmd with
  | command i => exact absurd (decode_eq_command_iff.mp hdec).1 (h i)
  | illegal why => exact ⟨why, rfl⟩

/-- Settles O2: a row without operand is matched by the one word of its command; a row with one, by the words of the operands
that fit (every byte for CRC.UPDATE); and no encoding lies below 0x1000 or above 0x5FFF. -/
theorem decoderAgreesWithOpcodeTable : Obligations.DecoderAgreesWithOpcodeTable := by
  intro c cmd
  refine ⟨?_, fun byte => ?_, ?_, fun index => ?_, ?_, fun hop => exists_illegal_of_forall_ne ?_⟩
  · rw [decode_eq_command_iff, and_allOnes_eq_iff]
    exact and_iff_left rfl
  · rw [decode_eq_command_iff]
    exact (and_congr_right fun _ => iff_of_true rfl byte.isLt).trans (and_treadMask_eq_iff .large 0x2#4 byte).symm
  · rw [decode_eq_command_iff, and_allOnes_eq_iff]
    exact and_iff_left rfl
  · rw [decode_eq_command_iff, Instr.wf_tread]
    exact (and_treadMask_eq_iff c 0x4#4 index).symm
  · rw [decode_eq_command_iff, and_allOnes_eq_iff]
    exact and_iff_left rfl
  · rintro i rfl
    have hbounds := encode_toNat_bounds i
    omega

/-- Settles O5: each row's test is that the word decodes to a command of that row, and a word decodes to at most one. -/
theorem opcodeRowsPartitionTheLegalWords : Obligations.OpcodeRowsPartitionTheLegalWords := by
  intro c cmd
  obtain ⟨hreset, hupdate, hfinal, htread, hrev, -⟩ := decoderAgreesWithOpcodeTable c cmd
  have hupdate' : (∃ byte, decode c cmd = .command (.update byte)) ↔ cmd &&& 0xFF00#16 = 0x2000#16 := by simp [hupdate]
  have htread' : (∃ index, decode c cmd = .command (.tread index)) ↔ cmd &&& treadMask c = 0x4000#16 := by simp [htread]
  simp only [opcodeRows, List.countP_cons, List.countP_nil, OpcodeRow.matches, beq_iff_eq, ← hreset, ← hupdate', ← hfinal,
    ← htread', ← hrev]
  cases decode c cmd with
  | illegal why => simp [Decoded.instr?]
  | command i => cases i <;> simp [Decoded.instr?]

/-! ### The illegal words -/

theorem withZeroImm8_illegal_iff {imm : Byte} : (∃ why, withZeroImm8 imm i = .illegal why) ↔ imm ≠ 0x00#8 := by
  unfold withZeroImm8
  split <;> simp [*]

theorem decodeTread_illegal_iff {index : Byte} : (∃ why, decodeTread c index = .illegal why) ↔ c.entries ≤ index.toNat := by
  unfold decodeTread
  split <;> simp [← Nat.not_lt, *]

/-- The illegal words, listed (R65). -/
theorem decode_illegal_iff : (∃ why, decode c cmd = .illegal why) ↔
    (opField cmd = 0x0#4 ∨ 0x6 ≤ (opField cmd).toNat ∨ rsvField cmd ≠ 0x0#4 ∨
      (imm8Field cmd ≠ 0x00#8 ∧ (opField cmd = 0x1#4 ∨ opField cmd = 0x3#4 ∨ opField cmd = 0x5#4)) ∨
      (opField cmd = 0x4#4 ∧ c.entries ≤ (imm8Field cmd).toNat)) := by
  unfold decode
  simp only [← BitVec.toNat_inj (x := opField cmd), BitVec.toNat_ofNat]
  split
  · simp [*]
  · split
    case h_6 =>
      have hop : (opField cmd).toNat = 0 ∨ 0x6 ≤ (opField cmd).toNat := by grind
      exact iff_of_true ⟨_, rfl⟩ (hop.imp_right .inl)
    all_goals simp [*, withZeroImm8_illegal_iff, decodeTread_illegal_iff]

end Sys2Proof
end
section
/-! What a step can do (spec/20_memory.md R46, R48; spec/70_reset_and_hazards.md R170, R177), said once: one case for each event.
What every step keeps is read off these cases. -/

namespace Sys2Proof.Machine

section events
variable {wd : Width} {b : Block wd.bits} {rest : List (Input wd.bits)}

theorem step_of_rst (hin : b.inputs = .rst :: rest) : step ⟨wd, b⟩ = .next ⟨wd, b.hardwareReset rest⟩ := by
  simp only [step, Block.nextEvent, hin, State.setBlock_mk]

theorem Block.nextEvent_of_not_ready (hready : b.tableReady = false) (hrst : ∀ rest, b.inputs ≠ .rst :: rest) :
    b.nextEvent = .fillSlot := by
  unfold Block.nextEvent
  split
  · exact absurd ‹_› (hrst _)
  · rw [hready, if_neg Bool.false_ne_true]
  · rw [hready, if_neg Bool.false_ne_true]

theorem step_of_not_ready (hready : b.tableReady = false) (hrst : ∀ rest, b.inputs ≠ .rst :: rest) :
    step ⟨wd, b⟩ = .next ⟨wd, b.fillSlot⟩ := by
  simp only [step, Block.nextEvent_of_not_ready hready hrst, State.setBlock_mk]

theorem step_of_idle (hready : b.tableReady = true) (hin : b.inputs = []) : step ⟨wd, b⟩ = .next ⟨wd, b.hold⟩ := by
  simp only [step, Block.nextEvent, hin, hready, if_true, State.setBlock_mk]

end events

/-- Everything a step can do to a block. -/
inductive StepEffect {w : Nat} (b : Block w) : Block w → Prop
  | hardwareReset (rest : List (Input w)) (hin : b.inputs = .rst :: rest) : StepEffect b (b.hardwareReset rest)
  | fillSlot (hready : b.tableReady = false) (hrst : ∀ rest, b.inputs ≠ .rst :: rest) : StepEffect b b.fillSlot
  | command (cmd : CmdWord) (x : BitVec w) (rest : List (Input w)) (i : Instr) (b' : Block w) (hready : b.tableReady = true)
      (hin : b.inputs = .command cmd x :: rest) (hdec : decode b.params.chunk cmd = .command i)
      (heffect : CommandEffect (b.acceptCommand x rest) i b') : StepEffect b b'
  | illegal (cmd : CmdWord) (x : BitVec w) (rest : List (Input w)) (why : IllegalWord) (hready : b.tableReady = true)
      (hin : b.inputs = .command cmd x :: rest) (hdec : decode b.params.chunk cmd = .illegal why) :
      StepEffect b (b.acceptCommand x rest).raiseIllegalCommand
  | idle (hready : b.tableReady = true) (hin : b.inputs = []) : StepEffect b b.hold

/-- Every step answers a next state (R150). -/
theorem exists_stepEffect (wd : Width) (b : Block wd.bits) : ∃ b', step ⟨wd, b⟩ = .next ⟨wd, b'⟩ ∧ StepEffect b b' := by
  rcases b.nextEvent_cases with ⟨rest, hin, -⟩ | ⟨hready, hrst, -⟩ | ⟨cmd, x, rest, hready, hin, -⟩ | ⟨hready, hin, -⟩
  · exact ⟨_, step_of_rst hin, .hardwareReset rest hin⟩
  · exact ⟨_, step_of_not_ready hready hrst, .fillSlot hready hrst⟩
  · cases hdec : decode b.params.chunk cmd with
    | illegal why => exact ⟨_, step_of_illegal hready hin hdec, .illegal cmd x rest why hready hin hdec⟩
    | command i =>
      obtain ⟨t, ht⟩ := exec_answers_next i ⟨wd, b.acceptCommand x rest⟩ hready
      obtain ⟨b', rfl, heffect⟩ := exec_next_inv ht
      exact ⟨b', (step_of_command hready hin hdec).trans ht, .command cmd x rest i b' hready hin hdec heffect⟩
  · exact ⟨_, step_of_idle hready hin, .idle hready hin⟩

/-- Inversion of `step`. -/
theorem step_next_inv {s t : State} (h : step s = .next t) : ∃ b', t = ⟨s.width, b'⟩ ∧ StepEffect s.block b' := by
  obtain ⟨b', hstep, heffect⟩ := exists_stepEffect s.width s.block
  cases hstep.symm.trans h
  exact ⟨b', rfl, heffect⟩

theorem stepEffect_of_step {wd : Width} {b b' : Block wd.bits} (h : step ⟨wd, b⟩ = .next ⟨wd, b'⟩) : StepEffect b b' := by
  obtain ⟨b'', heq, heffect⟩ := step_next_inv h
  cases heq
  exact heffect

section
variable {w : Nat} {b b' : Block w}

/-- No step changes the configuration (R23). -/
theorem StepEffect.params_eq (h : StepEffect b b') : b'.params = b.params := by
  cases h with
  | command _ _ _ _ _ _ _ _ heffect =>
    obtain ⟨hparams, -⟩ := heffect.frame
    exact hparams
  | hardwareReset | fillSlot | illegal | idle => simp

/-- No step but that of the generator changes TABLE (R95). -/
theorem StepEffect.table_eq (h : StepEffect b b') (hready : b.tableReady = true) : b'.table = b.table := by
  cases h with
  | command _ _ _ _ _ _ _ _ heffect =>
    obtain ⟨-, htable, -⟩ := heffect.frame
    exact htable
  | fillSlot hnot => simp [hready] at hnot
  | hardwareReset | illegal | idle => simp

/-- The entry of a slot by its number (R94). -/
theorem configTable_getElem? (p : Params w) {n : Nat} (hn : n < p.chunk.entries) :
    (configTable p)[n]? = some (entryOf p (BitVec.ofNat p.chunk.bits n)) := by
  have hslot := build_getElem? p.poly p.dir (BitVec.ofNat p.chunk.bits n)
  rwa [BitVec.toNat_ofNat, Nat.mod_eq_of_lt (show n < 2 ^ p.chunk.bits from hn)] at hslot

/-- The generator's next slot carries a sound TABLE on (R94). -/
theorem Block.TableSound.fillSlot (h : b.TableSound) (hready : b.tableReady = false) : b.fillSlot.TableSound := by
  have hslot := configTable_getElem? b.params (b.not_tableReady_iff.mp hready)
  have hnext : b.fillSlot.table = (configTable b.params).take (b.table.length + 1) := by
    rw [List.take_add_one, ← List.prefix_iff_eq_take.mp h, hslot]
    rfl
  rw [Block.TableSound, hnext]
  exact List.take_prefix ..

/-- A sound TABLE stays sound. -/
theorem StepEffect.tableSound (h : StepEffect b b') (hsound : b.TableSound) : b'.TableSound := by
  cases hready : b.tableReady with
  | true => rwa [Block.TableSound, h.table_eq hready, h.params_eq]
  | false =>
    cases h with
    | fillSlot => exact hsound.fillSlot hready
    | hardwareReset => exact hsound
    | command _ _ _ _ _ hfull | illegal _ _ _ _ hfull | idle hfull => simp [hready] at hfull

theorem Block.responseProper_of_none (h : b.response = none) : b.ResponseProper := by
  simp [Block.ResponseProper, h]

/-- The response of a command is proper (R27). -/
theorem CommandEffect.responseProper {i : Instr} (h : CommandEffect b i b') : b'.ResponseProper := by
  cases h <;> simp [Block.ResponseProper, Response.Proper]

/-- Whatever the state before, a step leaves a proper response or none (R27). -/
theorem StepEffect.responseProper (h : StepEffect b b') : b'.ResponseProper := by
  cases h with
  | command _ _ _ _ _ _ _ _ heffect => exact heffect.responseProper
  | illegal => simp [Block.ResponseProper, Response.Proper]
  | hardwareReset | fillSlot | idle => exact Block.responseProper_of_none rfl

end

/-- Settles O45: a step keeps TABLE or carries it on by its next entry, and leaves a proper response or none. -/
theorem everyStepKeepsSoundness : Obligations.EveryStepKeepsSoundness := by
  rintro s t ⟨htable, -⟩ h
  obtain ⟨b', rfl, heffect⟩ := step_next_inv h
  exact ⟨heffect.tableSound htable, heffect.responseProper⟩

/-- Settles O46: TABLE after reset is the whole table or its first `n` slots, and there is no response. -/
theorem resetStatesAreSound : Obligations.ResetStatesAreSound := fun _ =>
  ⟨⟨List.prefix_refl _, Block.responseProper_of_none rfl⟩,
    fun n => ⟨List.take_prefix n _, Block.responseProper_of_none rfl⟩⟩

/-- Settles O47: STATUS has no constructor with code 11, and the response is proper. -/
theorem responsesHaveTheListedForm : Obligations.ResponsesHaveTheListedForm := by
  intro wd b b' h r hr
  have hcode (s : Status) : s.code ≠ 0b11#2 := by cases s <;> decide
  exact ⟨hcode r.status, ((stepEffect_of_step h).responseProper r hr).resolve_left⟩

end Sys2Proof.Machine
end
section
/-! Proofs of the statements about single steps and runs: what the step does on each event, in which cases it touches ACC, the
mark and the inputs, and what therefore holds along every run. -/

namespace Sys2Proof.Machine

/-! ### The step on each event -/

/-- Settles O6: the list is the decoder's branches read one by one, and an illegal word is taken and raised as IllegalCommand. -/
theorem illegalWordsAreTheListedOnes : Obligations.IllegalWordsAreTheListedOnes :=
  ⟨fun _ _ => decode_illegal_iff, fun _ _ _ _ _ _ => step_of_illegal⟩

/-- Settles O7: the input is taken, and the decoded command is performed. -/
theorem stepRunsTheDecodedCommand : Obligations.StepRunsTheDecodedCommand := fun _ _ _ _ _ _ => step_of_command

/-- Settles O8: with TABLE complete and nothing at the ports the event is the idle one. -/
theorem idleCoreHoldsItsState : Obligations.IdleCoreHoldsItsState := fun _ _ => step_of_idle

/-- Settles O20: with TABLE incomplete and no RST first the event is the generator's. -/
theorem commandsWaitWhileTableIsBuilt : Obligations.CommandsWaitWhileTableIsBuilt := fun _ _ => step_of_not_ready

/-- Settles O41: RST first at the ports decides the event alone; INIT_ADJ is written in the rule's own form. -/
theorem hardwareResetConstructs : Obligations.HardwareResetConstructs := by
  intro wd b rest hin
  rw [← initAdj_eq]
  exact step_of_rst hin

/-- The step that takes CRC.RESET. -/
theorem step_reset {wd : Width} {b : Block wd.bits} {x : BitVec wd.bits} {rest : List (Input wd.bits)}
    (hready : b.tableReady = true) (hin : b.inputs = .command 0x1000#16 x :: rest) :
    step ⟨wd, b⟩ = .next ⟨wd, ((b.acceptCommand x rest).writeAcc (initAdj b.params)).respondNone⟩ :=
  (step_of_command hready hin (decode_encode_reset _)).trans (exec_reset ⟨wd, b.acceptCommand x rest⟩)

/-- Settles O43: the two steps, each with INIT_ADJ in ACC and its input taken. -/
theorem hardwareResetAndResetCommandAgree : Obligations.HardwareResetAndResetCommandAgree := fun _ _ _ _ hready =>
  ⟨_, _, step_of_rst rfl, step_reset hready rfl, rfl, rfl, rfl, rfl⟩

/-- Settles O36: CRC.RESET leaves INIT_ADJ in ACC and TABLE complete, and CRC.FINAL answers from there; INIT_ADJ is then read in
each direction. -/
theorem resetThenFinalRespondsWithInitAdj : Obligations.ResetThenFinalRespondsWithInitAdj := by
  intro wd b x y rest hready hin
  obtain ⟨b', hfinal, hsame, hin', hvalue⟩ :=
    exists_step_final (b := ((b.acceptCommand x (.command 0x3000#16 y :: rest)).writeAcc (initAdj b.params)).respondNone) hready rfl
  have hvalue' : b'.response = some ⟨.value, initAdj b.params ^^^ b.params.xorout⟩ := hvalue
  refine ⟨b', ?_, hsame.acc, hin', hvalue', fun hdir => ?_, fun hdir => ?_⟩
  · rw [run_succ_of_next (step_reset hready hin), run_succ_of_next hfinal, run_zero]
  · rw [hvalue', initAdj_eq, if_neg (by simp [hdir])]
  · rw [hvalue', initAdj_eq, if_pos hdir]

/-! ### What one step touches -/

section
variable {w : Nat} {b b' : Block w}

/-- A step leaves the inputs, or takes the first. -/
theorem StepEffect.inputs_eq_or_cons (h : StepEffect b b') : b'.inputs = b.inputs ∨ ∃ x, b.inputs = x :: b'.inputs := by
  cases h with
  | hardwareReset rest hin => exact .inr ⟨_, hin⟩
  | command cmd x rest i b' hready hin hdec heffect =>
    obtain ⟨-, -, hinputs, -⟩ := heffect.frame
    exact .inr ⟨_, hin.trans (congrArg _ hinputs.symm)⟩
  | illegal cmd x rest why hready hin => exact .inr ⟨_, hin⟩
  | fillSlot | idle => exact .inl rfl

/-- With TABLE complete a step takes the first input, if there is one. -/
theorem StepEffect.inputs_eq_tail (h : StepEffect b b') (hready : b.tableReady = true) : b'.inputs = b.inputs.tail := by
  cases h with
  | fillSlot hnot => simp [hready] at hnot
  | command cmd x rest i b' hready hin hdec heffect =>
    obtain ⟨-, -, hinputs, -⟩ := heffect.frame
    rw [hinputs, hin]
    rfl
  | hardwareReset _ hin | illegal _ _ _ _ _ hin | idle _ hin => simp [hin]

/-- Only a hardware reset and the words of CRC.RESET and CRC.UPDATE write ACC (R21). -/
theorem StepEffect.of_acc_ne (h : StepEffect b b') (hacc : b'.acc ≠ b.acc) :
    (∃ rest, b.inputs = .rst :: rest) ∨ (∃ x rest, b.inputs = .command (encode .reset) x :: rest) ∨
    (∃ byte x rest, b.inputs = .command (encode (.update byte)) x :: rest) := by
  cases h with
  | hardwareReset rest hin => exact .inl ⟨rest, hin⟩
  | command cmd x rest i b' hready hin hdec heffect =>
    obtain ⟨rfl, -⟩ := decode_eq_command_iff.mp hdec
    cases i with
    | reset => exact .inr (.inl ⟨x, rest, hin⟩)
    | update byte => exact .inr (.inr ⟨byte, x, rest, hin⟩)
    | final | tread | rev => exact absurd (heffect.acc_eq ⟨by simp, by simp⟩) hacc
  | fillSlot | illegal | idle => exact absurd rfl hacc

/-- A command raises the mark exactly when it answers ILLEGAL (decision D4). -/
theorem CommandEffect.illegalSeen_iff {i : Instr} (h : CommandEffect b i b') :
    b'.illegalSeen = true ↔ b.illegalSeen = true ∨ b'.response = some ⟨.illegal, 0#w⟩ := by
  cases h <;> simp

/-- A step raises the mark exactly when it answers ILLEGAL (decision D4). -/
theorem StepEffect.illegalSeen_iff (h : StepEffect b b') :
    b'.illegalSeen = true ↔ b.illegalSeen = true ∨ b'.response = some ⟨.illegal, 0#w⟩ := by
  cases h with
  | command _ _ _ _ _ _ _ _ heffect => exact heffect.illegalSeen_iff
  | hardwareReset | fillSlot | illegal | idle => simp

/-- A well-formed command leaves the mark: of the commands only an index out of range is answered ILLEGAL (R65). -/
theorem CommandEffect.illegalSeen_eq_of_wf {i : Instr} (h : CommandEffect b i b') (hwf : i.wf b.params.chunk = true) :
    b'.illegalSeen = b.illegalSeen := by
  cases h with
  | treadOutOfRange index hi => exact absurd (Instr.wf_tread.mp hwf) (Nat.not_lt.mpr hi)
  | reset | update | final | tread | rev => simp

/-- While the waiting inputs are legal, a step leaves the mark. -/
theorem StepEffect.illegalSeen_eq_of_legal (h : StepEffect b b') (hlegal : ∀ x ∈ b.inputs, x.legal b.params.chunk = true) :
    b'.illegalSeen = b.illegalSeen := by
  cases h with
  | command cmd x rest i b' hready hin hdec heffect =>
    obtain ⟨-, hwf⟩ := decode_eq_command_iff.mp hdec
    exact heffect.illegalSeen_eq_of_wf hwf
  | illegal cmd x rest why hready hin hdec =>
    have hhead := hlegal (.command cmd x) (hin ▸ List.mem_cons_self)
    simp [Input.legal, hdec, Decoded.instr?] at hhead
  | hardwareReset | fillSlot | idle => simp

theorem StepEffect.mem_inputs (h : StepEffect b b') {x : Input w} (hx : x ∈ b'.inputs) : x ∈ b.inputs := by
  rcases h.inputs_eq_or_cons with heq | ⟨y, hy⟩
  · exact heq ▸ hx
  · exact hy ▸ List.mem_cons_of_mem y hx

end

/-- Settles O10: the step's cases, with the inputs each leaves. -/
theorem inputsAreTakenOneAtATimeInOrder : Obligations.InputsAreTakenOneAtATimeInOrder := by
  intro wd b
  obtain ⟨b', hstep, heffect⟩ := exists_stepEffect wd b
  exact ⟨b', hstep, heffect.inputs_eq_or_cons, heffect.inputs_eq_tail⟩

/-- A command is accepted only with TABLE complete (R177). -/
theorem Block.tableReady_of_accept {w : Nat} {b : Block w} {cmd : CmdWord} {x : BitVec w} {rest : List (Input w)}
    (h : b.nextEvent = .accept cmd x rest) : b.tableReady = true := by
  rcases b.nextEvent_cases with ⟨_, -, hevent⟩ | ⟨-, -, hevent⟩ | ⟨_, _, _, hready, -, -⟩ | ⟨hready, -, -⟩
  · cases hevent.symm.trans h
  · cases hevent.symm.trans h
  · exact hready
  · exact hready

/-- Settles O19: only the generator's step changes TABLE, and it is taken only while TABLE is incomplete; a command is accepted
only when TABLE is complete, and a sound complete TABLE is built. -/
theorem completedTableIsNeverChanged : Obligations.CompletedTableIsNeverChanged :=
  ⟨fun _ _ _ hready h => (stepEffect_of_step h).table_eq hready,
    fun _ _ _ _ _ hsound hevent => hsound.built_of_ready (Block.tableReady_of_accept hevent)⟩

/-- Settles O48: the cases of a step that changes ACC. -/
theorem onlyResetUpdateAndRstWriteAcc : Obligations.OnlyResetUpdateAndRstWriteAcc := fun _ _ _ h =>
  (stepEffect_of_step h).of_acc_ne

/-- Settles O50: case by case over the step. -/
theorem illegalMarkRecordsEveryIllegalResponse : Obligations.IllegalMarkRecordsEveryIllegalResponse := fun _ _ _ h =>
  (stepEffect_of_step h).illegalSeen_iff

/-- Settles O52: a system step sets the place of core `k` alone, to the next state of that core. -/
theorem coresDoNotInteract : Obligations.CoresDoNotInteract := by
  intro sys sys' k h
  unfold System.stepCore at h
  split at h
  · next s hs =>
    split at h
    · next t ht =>
      cases h
      have hk : k < sys.cores.length := (List.getElem?_eq_some_iff.mp hs).1
      exact ⟨fun j hj => List.getElem?_set_ne hj.symm, s, t, hs, List.getElem?_set_self hk, ht⟩
    · cases h
    · cases h
  · cases h

/-! ### Along a run -/

/-- What every step keeps, every run keeps. -/
theorem run_keeps {P : State → Prop} (hkeeps : ∀ s t, P s → step s = .next t → P t) {k : Nat} {s t : State} (hs : P s)
    (hrun : run k s = .next t) : P t := by
  induction k generalizing s with
  | zero =>
    cases hrun
    exact hs
  | succ k ih =>
    obtain ⟨b', hstep, -⟩ := exists_stepEffect s.width s.block
    exact ih (hkeeps s _ hs hstep) ((run_succ_of_next hstep).symm.trans hrun)

/-- Settles O11: by induction on the number of steps, each of which answers a next state. -/
theorem coreNeverStops : Obligations.CoreNeverStops := by
  intro k
  induction k with
  | zero => exact fun s => ⟨s, run_zero s⟩
  | succ k ih =>
    intro s
    obtain ⟨b', hstep, -⟩ := exists_stepEffect s.width s.block
    obtain ⟨t, hrun⟩ := ih ⟨s.width, b'⟩
    exact ⟨t, (run_succ_of_next hstep).trans hrun⟩

/-- Settles O44: a step keeps the width by its type, and the parameters. -/
theorem configurationNeverChanges : Obligations.ConfigurationNeverChanges := by
  intro k s t hrun
  refine run_keeps (P := fun u => u.config = s.config) (fun u v hu h => ?_) rfl hrun
  obtain ⟨b', rfl, heffect⟩ := step_next_inv h
  rw [← hu]
  exact congrArg (Config.mk u.width) heffect.params_eq

/-- Settles O51: that the mark is down and the waiting inputs are legal is kept by every step, since a step leaves or takes
inputs and the configuration stays. -/
theorem legalInputsKeepTheRunSafe : Obligations.LegalInputsKeepTheRunSafe := by
  intro k s t hsafe hlegal hrun
  refine (run_keeps (P := fun u => u.Safe ∧ ∀ x ∈ u.block.inputs, x.legal u.block.params.chunk = true)
    (fun u v hu h => ?_) ⟨hsafe, hlegal⟩ hrun).1
  obtain ⟨b', rfl, heffect⟩ := step_next_inv h
  obtain ⟨hsafe, hlegal⟩ := hu
  exact ⟨(heffect.illegalSeen_eq_of_legal hlegal).trans hsafe,
    fun x hx => heffect.params_eq ▸ hlegal x (heffect.mem_inputs hx)⟩

section
variable {wd : Width} {b : Block wd.bits}

/-- Illegal words after an ILLEGAL response leave that response standing. -/
theorem exists_run_of_illegal {sent : List (CmdWord × BitVec wd.bits)} {rest : List (Input wd.bits)}
    (hready : b.tableReady = true) (hillegal : ∀ c ∈ sent, ∃ why, decode b.params.chunk c.1 = .illegal why)
    (hin : b.inputs = sent.map (fun c => Input.command c.1 c.2) ++ rest)
    (hresponse : b.response = some ⟨.illegal, 0#wd.bits⟩) (hseen : b.illegalSeen = true) :
    ∃ x : BitVec wd.bits, run sent.length ⟨wd, b⟩ = .next ⟨wd, { b with
      inputs := rest, opnd := x, response := some ⟨.illegal, 0#wd.bits⟩, illegalSeen := true }⟩ := by
  induction sent generalizing b with
  | nil =>
    rw [List.map_nil, List.nil_append] at hin
    refine ⟨b.opnd, ?_⟩
    rw [← hin, ← hresponse, ← hseen]
    rfl
  | cons c sent ih =>
    obtain ⟨⟨why, hdec⟩, hsent⟩ := List.forall_mem_cons.mp hillegal
    rw [List.length_cons, run_succ_of_next (step_of_illegal hready hin hdec)]
    exact ih hready hsent rfl rfl rfl

theorem Block.fillSlot_length {w : Nat} (b : Block w) : b.fillSlot.table.length = b.table.length + 1 :=
  List.length_append

/-- A TABLE sound and filled in part is built after as many steps as there are slots left. -/
theorem run_of_not_ready {k : Nat} (hsound : b.TableSound) (hslots : b.table.length + k = b.params.chunk.entries)
    (hrst : ∀ rest, b.inputs ≠ .rst :: rest) (hresponse : b.response = none) :
    run k ⟨wd, b⟩ = .next ⟨wd, { b with table := configTable b.params, response := none }⟩ := by
  induction k generalizing b with
  | zero =>
    have hbuilt : b.TableBuilt := hsound.built_of_ready (b.tableReady_iff.mpr (by omega))
    rw [run_zero, ← hbuilt, ← hresponse]
  | succ k ih =>
    have hready : b.tableReady = false := b.not_tableReady_iff.mpr (by omega)
    rw [run_succ_of_next (step_of_not_ready hready hrst)]
    refine ih (hsound.fillSlot hready) ?_ hrst rfl
    rw [Block.fillSlot_length, Block.fillSlot_params]
    omega

end

/-- Settles O9: the first illegal word raises IllegalCommand, and the others leave its response standing. -/
theorem illegalWordsInARowChangeNothing : Obligations.IllegalWordsInARowChangeNothing := by
  intro wd b sent rest hready hne hillegal hin
  cases sent with
  | nil => exact absurd rfl hne
  | cons c sent =>
    obtain ⟨⟨why, hdec⟩, hsent⟩ := List.forall_mem_cons.mp hillegal
    rw [List.length_cons, run_succ_of_next (step_of_illegal hready hin hdec)]
    exact exists_run_of_illegal hready hsent rfl rfl rfl

/-- Settles O21: the first of the remaining steps fills a slot and leaves no response, and the others do the same until TABLE is
built. -/
theorem tableIsWholeAfterItsRemainingSlots : Obligations.TableIsWholeAfterItsRemainingSlots := by
  intro wd b hsound hready hrst
  have hlt := b.not_tableReady_iff.mp hready
  obtain ⟨k, hk⟩ : ∃ k, b.params.chunk.entries - b.table.length = k + 1 := ⟨_, (Nat.succ_pred (by omega)).symm⟩
  rw [hk, run_succ_of_next (step_of_not_ready hready hrst)]
  refine run_of_not_ready (hsound.fillSlot hready) ?_ hrst rfl
  rw [Block.fillSlot_length, Block.fillSlot_params]
  omega

end Sys2Proof.Machine
end
section
/-! Proofs of the statements about the arithmetic of the generator and of the update (spec/41_table_generator.md,
spec/42_chunked_update.md). The update is linear because each lookup is; and a chunk of one bit is one round of the
bit-serial register, so the tiny table's chunks split into bits as wider chunks split into halves. -/

namespace Sys2Proof.Machine

variable {w c : Nat}

/-! ### In the arithmetic of R15 -/

/-- Settles O15: the top bit tells whether the register is at least 2^(W-1), and a register below that is doubled without
overflow. -/
theorem forwardRoundIsAShift : Obligations.ForwardRoundIsAShift := by
  intro wd poly r
  have hw : 2 ^ wd.bits = 2 ^ (wd.bits - 1) * 2 := by cases wd <;> rfl
  rw [forwardRound, BitVec.msb_eq_decide]
  by_cases htop : 2 ^ (wd.bits - 1) ≤ r.toNat
  · simp [htop, Nat.shiftLeft_eq]
  · have hfits : r.toNat * 2 < 2 ^ wd.bits := by omega
    simp [htop, Nat.shiftLeft_eq, Nat.mod_eq_of_lt hfits]

/-- Settles O16: the low bit tells whether the register is odd. -/
theorem reverseRoundIsAShift : Obligations.ReverseRoundIsAShift := by
  intro wd p r
  have hodd : r.getLsbD 0 = decide (r.toNat % 2 = 1) := by
    rw [BitVec.getLsbD, Nat.testBit_zero]
  rw [reverseRound, hodd]
  by_cases hlow : r.toNat % 2 = 1
  · simp [hlow, Nat.shiftRight_eq_div_pow]
  · simp [hlow, Nat.shiftRight_eq_div_pow]

theorem forwardIndex_toNat (hc : c ≤ w) (acc : BitVec w) (v : BitVec c) :
    (forwardIndex acc v).toNat = (acc.toNat / 2 ^ (w - c)) ^^^ v.toNat := by
  have hfits : acc.toNat / 2 ^ (w - c) < 2 ^ c := by
    rw [Nat.div_lt_iff_lt_mul (Nat.two_pow_pos _), ← Nat.pow_add, Nat.add_sub_cancel' hc]
    exact acc.isLt
  rw [forwardIndex, BitVec.toNat_xor, BitVec.toNat_setWidth, BitVec.toNat_ushiftRight, Nat.shiftRight_eq_div_pow,
    Nat.mod_eq_of_lt hfits]

/-- Settles O24: the index is what a shift by W-CHUNK leaves of ACC, and the fold's two branches are read as they stand. -/
theorem forwardStepArithmetic : Obligations.ForwardStepArithmetic := by
  intro wd c T acc v
  refine ⟨forwardIndex_toNat (Chunk.bits_le_width c wd) acc v, ?_⟩
  rw [foldForward, apply_ite BitVec.toNat, BitVec.toNat_xor, BitVec.toNat_shiftLeft, Nat.shiftLeft_eq]

/-- Settles O25: the index is ACC modulo 2^CHUNK, and the fold's two branches are read as they stand. -/
theorem reverseStepArithmetic : Obligations.ReverseStepArithmetic := by
  intro wd c T acc v
  refine ⟨by rw [reverseIndex, BitVec.toNat_xor, BitVec.toNat_setWidth], ?_⟩
  rw [foldReverse, apply_ite BitVec.toNat, BitVec.toNat_xor, BitVec.toNat_ushiftRight, Nat.shiftRight_eq_div_pow]

/-- Settles O23: the chunks are listed by evaluation of their positions, and a byte's bits from 0 on are the byte. -/
theorem chunkOrderFollowsDirection : Obligations.ChunkOrderFollowsDirection := by
  intro byte
  refine ⟨rfl, rfl, congrArg (fun v => [v]) BitVec.extractLsb'_eq_self, fun c => ?_⟩
  cases c <;> rfl

/-! ### Linearity -/

theorem foldForward_xor {T : BitVec c → BitVec w} (hT : ∀ i j, T (i ^^^ j) = T i ^^^ T j) (acc acc' : BitVec w)
    (v v' : BitVec c) :
    foldForward T (acc ^^^ acc') (v ^^^ v') = foldForward T acc v ^^^ foldForward T acc' v' := by
  have hindex : forwardIndex (acc ^^^ acc') (v ^^^ v') = forwardIndex acc v ^^^ forwardIndex acc' v' := by
    simp only [forwardIndex, BitVec.ushiftRight_xor_distrib, BitVec.setWidth_xor]
    ac_rfl
  simp only [foldForward_eq, hindex, hT, BitVec.shiftLeft_xor_distrib]
  ac_rfl

theorem foldReverse_xor {T : BitVec c → BitVec w} (hT : ∀ i j, T (i ^^^ j) = T i ^^^ T j) (acc acc' : BitVec w)
    (v v' : BitVec c) :
    foldReverse T (acc ^^^ acc') (v ^^^ v') = foldReverse T acc v ^^^ foldReverse T acc' v' := by
  have hindex : reverseIndex (acc ^^^ acc') (v ^^^ v') = reverseIndex acc v ^^^ reverseIndex acc' v' := by
    simp only [reverseIndex, BitVec.setWidth_xor]
    ac_rfl
  simp only [foldReverse_eq, hindex, hT, BitVec.ushiftRight_xor_distrib]
  ac_rfl

theorem forwardChunk_xor (byte byte' : Byte) (k : Nat) :
    forwardChunk c (byte ^^^ byte') k = forwardChunk c byte k ^^^ forwardChunk c byte' k := BitVec.extractLsb'_xor

theorem reverseChunk_xor (byte byte' : Byte) (k : Nat) :
    reverseChunk c (byte ^^^ byte') k = reverseChunk c byte k ^^^ reverseChunk c byte' k := BitVec.extractLsb'_xor

/-- An update through a table that is linear is linear in ACC and byte together: every lookup is. -/
theorem updateByte_xor {T : BitVec c → BitVec w} (hT : ∀ i j, T (i ^^^ j) = T i ^^^ T j) (dir : Dir) (acc acc' : BitVec w)
    (byte byte' : Byte) :
    updateByte T dir (acc ^^^ acc') (byte ^^^ byte') = updateByte T dir acc byte ^^^ updateByte T dir acc' byte' := by
  cases dir with
  | forward =>
    exact List.foldl_hom₂ _ (· ^^^ ·) _ _ _ acc acc' fun a a' k => by
      rw [← foldForward_xor hT, forwardChunk_xor]
  | reverse =>
    exact List.foldl_hom₂ _ (· ^^^ ·) _ _ _ acc acc' fun a a' k => by
      rw [← foldReverse_xor hT, reverseChunk_xor]

/-- Settles O30: the generated table is linear (law 4 of R93). -/
theorem updateIsLinear : Obligations.UpdateIsLinear := by
  intro wd p acc acc' byte byte'
  obtain ⟨-, -, -, hlinear, -⟩ := generatorLaws wd p.chunk p.poly
  exact updateByte_xor (hlinear p.dir) p.dir acc acc' byte byte'

/-! ### The bit-serial register -/

/-- One bit folded in is a lookup of a chunk of one bit (R91). -/
theorem serialForward_eq_foldForward (hw : 1 ≤ w) (poly acc : BitVec w) (bit : Bool) :
    serialForward poly acc bit = foldForward (generateEntry poly .forward) acc (BitVec.ofBool bit) := by
  have hmsb : ((BitVec.ofBool bit).setWidth w <<< (w - 1)).msb = bit := by
    have hin : w - 1 < w := by omega
    cases bit <;> simp [BitVec.msb_eq_getLsbD_last, hin]
  have hlost : ((BitVec.ofBool bit).setWidth w <<< (w - 1)) <<< 1 = 0#w := by
    rw [← BitVec.shiftLeft_add, Nat.sub_add_cancel hw, BitVec.shiftLeft_eq_zero (Nat.le_refl w)]
  rw [foldForward_generateEntry hw, Function.iterate_one, forwardRound, BitVec.msb_xor, hmsb, BitVec.shiftLeft_xor_distrib,
    hlost, BitVec.xor_zero, serialForward]

theorem serialReverse_eq_reverseBits (poly acc : BitVec w) (bit : Bool) :
    serialReverse poly acc bit = reverseBits (serialForward poly (reverseBits acc) bit) := by
  have htest : (reverseBits acc).msb = acc.getLsbD 0 := reverseBits_getMsbD acc 0
  simp only [serialReverse, serialForward, htest, apply_ite reverseBits, reverseBits_xor, reverseBits_shiftLeft,
    reverseBits_reverseBits]

/-- One bit folded in least significant first is a lookup of a chunk of one bit (R92). -/
theorem serialReverse_eq_foldReverse (hw : 1 ≤ w) (poly acc : BitVec w) (bit : Bool) :
    serialReverse poly acc bit = foldReverse (generateEntry poly .reverse) acc (BitVec.ofBool bit) := by
  have hbit : reverseBits (BitVec.ofBool bit) = BitVec.ofBool bit := by cases bit <;> decide
  rw [foldReverse_generateEntry hw, hbit, ← serialForward_eq_foldForward hw, serialReverse_eq_reverseBits]

/-- A chunk of two bits is its two bits, the more significant first. -/
theorem extractLsb'_two (byte : Byte) (i : Nat) :
    byte.extractLsb' i 2 = BitVec.ofBool (byte.getLsbD (i + 1)) ++ BitVec.ofBool (byte.getLsbD i) :=
  BitVec.eq_of_getLsbD_eq fun j hj => by
    simp only [BitVec.getLsbD_extractLsb', BitVec.getLsbD_append]
    interval_cases j <;> simp

theorem foldForward_extractLsb'_two (hw : 1 + 1 ≤ w) (poly acc : BitVec w) (byte : Byte) (i : Nat) :
    foldForward (generateEntry poly .forward) acc (byte.extractLsb' i 2) =
      serialForward poly (serialForward poly acc (byte.getLsbD (i + 1))) (byte.getLsbD i) := by
  have hw' : 1 ≤ w := by omega
  rw [extractLsb'_two, foldForward_append hw, ← serialForward_eq_foldForward hw', ← serialForward_eq_foldForward hw']

theorem foldReverse_extractLsb'_two (hw : 1 + 1 ≤ w) (poly acc : BitVec w) (byte : Byte) (i : Nat) :
    foldReverse (generateEntry poly .reverse) acc (byte.extractLsb' i 2) =
      serialReverse poly (serialReverse poly acc (byte.getLsbD i)) (byte.getLsbD (i + 1)) := by
  have hw' : 1 ≤ w := by omega
  rw [extractLsb'_two, foldReverse_append hw, ← serialReverse_eq_foldReverse hw', ← serialReverse_eq_foldReverse hw']

/-- A byte folded in bit by bit is four lookups of 2-bit chunks, in both directions. -/
theorem updateByte_tiny_eq_serialByte (hw : 2 ≤ w) (poly : BitVec w) (dir : Dir) (acc : BitVec w) (byte : Byte) :
    updateByte (generateEntry poly dir : BitVec 2 → BitVec w) dir acc byte = serialByte poly dir acc byte := by
  cases dir with
  | forward =>
    simp only [updateByte_forward_tiny, foldForward_extractLsb'_two hw]
    rfl
  | reverse =>
    simp only [updateByte_reverse_tiny, foldReverse_extractLsb'_two hw]
    rfl

/-- Settles O31: every table size gives what the tiny table gives, and its chunks split into bits. -/
theorem chunkedUpdateIsTheBitSerialUpdate : Obligations.ChunkedUpdateIsTheBitSerialUpdate := by
  intro wd p acc byte
  have hw : 8 ≤ wd.bits := Chunk.bits_le_width .large wd
  rw [← updateByte_entryOf_chunk hw p .tiny]
  exact updateByte_tiny_eq_serialByte (by omega) p.poly p.dir acc byte

end Sys2Proof.Machine
end
section
/-! What a word with an operand is as a number, and which words of CRC.UPDATE and CRC.TREAD are legal (spec/30_encoding.md R63,
R65). -/

namespace Sys2Proof

variable {c : Chunk} {cmd : CmdWord}

/-- The operand stands below the word's other bits. -/
theorem commandWord_eq_or (op : BitVec 4) (imm : Byte) : commandWord op imm = commandWord op 0x00#8 ||| imm.setWidth 16 :=
  BitVec.eq_of_getLsbD_eq fun i hi => by
    simp only [commandWord, BitVec.getLsbD_or, BitVec.getLsbD_append, BitVec.getLsbD_setWidth, hi]
    rcases Nat.lt_or_ge i 8 with hlow | hhigh
    · simp [hlow]
    · simp [Nat.not_lt.mpr hhigh, BitVec.getLsbD_of_ge imm i hhigh]

/-- A word of OP = 0x2 is CRC.UPDATE exactly when RSV is zero. -/
theorem decode_update_cases (hop : opField cmd = 0x2#4) :
    (∃ byte : Byte, cmd = 0x2000#16 ||| byte.setWidth 16 ∧ decode c cmd = .command (.update byte)) ∨
    (rsvField cmd ≠ 0x0#4 ∧ ∃ why, decode c cmd = .illegal why) := by
  by_cases hrsv : rsvField cmd = 0x0#4
  · have hword := eq_commandWord_of_rsvField_zero hrsv
    rw [hop, commandWord_eq_or] at hword
    exact .inl ⟨imm8Field cmd, hword, decode_of_opField_update hop hrsv⟩
  · exact .inr ⟨hrsv, _, decode_of_rsvField_ne_zero hrsv⟩

/-- A word of OP = 0x4 is CRC.TREAD exactly when RSV is zero and the index is in range. -/
theorem decode_tread_cases (hop : opField cmd = 0x4#4) :
    (∃ index : Byte, index.toNat < c.entries ∧ cmd = 0x4000#16 ||| index.setWidth 16 ∧
      decode c cmd = .command (.tread index)) ∨
    ((rsvField cmd ≠ 0x0#4 ∨ c.entries ≤ (imm8Field cmd).toNat) ∧ ∃ why, decode c cmd = .illegal why) := by
  by_cases hrsv : rsvField cmd = 0x0#4
  · have hdec := decode_of_opField_tread (c := c) hop hrsv
    by_cases hindex : (imm8Field cmd).toNat < c.entries
    · have hword := eq_commandWord_of_rsvField_zero hrsv
      rw [hop, commandWord_eq_or] at hword
      exact .inl ⟨imm8Field cmd, hindex, hword, hdec.trans (if_pos hindex)⟩
    · exact .inr ⟨.inr (Nat.le_of_not_lt hindex), _, hdec.trans (if_neg hindex)⟩
  · exact .inr ⟨.inl hrsv, _, decode_of_rsvField_ne_zero hrsv⟩

/-- Settles O1: each word is decoded by evaluation. -/
theorem writtenOutWordsDecode : Obligations.WrittenOutWordsDecode := by
  unfold Obligations.WrittenOutWordsDecode
  decide

end Sys2Proof
end

section
/-! Proofs of the statements about single commands: CRC.UPDATE and CRC.TREAD, which read TABLE, and which commands read OPND. -/

namespace Sys2Proof.Machine

/-! ### Commands that read TABLE -/

theorem exec_update_of_read {s : State} {T : BitVec s.block.params.chunk.bits → BitVec s.width.bits}
    (hT : s.block.tableRead? = some T) (byte : Byte) :
    exec (.update byte) s =
      .next (s.setBlock (s.block.writeAcc (updateByte T s.block.params.dir s.block.acc byte)).respondNone) := by
  simp only [exec, execUpdate, hT, byteOperand]

theorem exec_tread_of_read {s : State} {T : BitVec s.block.params.chunk.bits → BitVec s.width.bits} {index : Byte}
    (hT : s.block.tableRead? = some T) (hindex : index.toNat < s.block.params.chunk.entries) :
    exec (.tread index) s = .next (s.setBlock (s.block.respondValue (T (index.setWidth s.block.params.chunk.bits)))) := by
  simp only [exec, execTread, indexOperand, if_pos hindex, hT]

theorem exec_tread_of_out_of_range {s : State} {index : Byte} (hindex : s.block.params.chunk.entries ≤ index.toNat) :
    exec (.tread index) s = .next (s.setBlock s.block.raiseIllegalCommand) := by
  simp only [exec, execTread, indexOperand, if_neg (Nat.not_lt.mpr hindex)]

/-- With TABLE built, CRC.TREAD with an index in range answers the generator's entry (R98). -/
theorem exec_tread_of_built {s : State} {index : Byte} (hbuilt : s.block.TableBuilt)
    (hindex : index.toNat < s.block.params.chunk.entries) :
    exec (.tread index) s =
      .next (s.setBlock (s.block.respondValue (entryOf s.block.params (index.setWidth s.block.params.chunk.bits)))) :=
  exec_tread_of_read (Block.tableRead?_of_built hbuilt) hindex

/-- Settles O29: an incomplete TABLE cannot be read. -/
theorem tableReadersAreStuckBeforeTheTableIsBuilt : Obligations.TableReadersAreStuckBeforeTheTableIsBuilt := by
  intro wd b hready
  have hread : b.tableRead? = none := Block.tableRead?_eq_none hready
  refine ⟨fun byte => ?_, fun index hindex => ?_⟩
  · simp only [exec, execUpdate, hread]
  · simp only [exec, execTread, indexOperand, if_pos hindex, hread]

/-- Settles O22: the command's outcome in range and out of range, its words, the laws 1 to 3 of R93 for the entries the rule
lists, and its worked values by evaluation. -/
theorem treadRespondsWithTheEntry : Obligations.TreadRespondsWithTheEntry := by
  refine ⟨fun wd b index => exec_tread_of_built (s := ⟨wd, b⟩), fun wd b index => exec_tread_of_out_of_range (s := ⟨wd, b⟩),
    fun c cmd => decode_tread_cases, fun index => index.isLt, fun wd p => ?_, by decide, by decide⟩
  obtain ⟨hzero, hforward, hreverse, -⟩ := generatorLaws wd p.chunk p.poly
  refine ⟨hzero p.dir, fun hdir => ?_, fun hdir => ?_⟩
  · rw [entryOf, hdir, hforward]
  · rw [entryOf, hdir, hreverse]

/-- Zero ACC and a zero byte stay zero: they are the XOR of any two of them with themselves, and the update is linear. -/
theorem updateByte_zero (wd : Width) (p : Params wd.bits) : updateByte (entryOf p) p.dir (0#wd.bits) 0x00#8 = 0#wd.bits := by
  have hlinear := updateIsLinear wd p (0#wd.bits) (0#wd.bits) 0x00#8 0x00#8
  rwa [BitVec.xor_self, BitVec.xor_self, BitVec.xor_self] at hlinear

/-- Settles O27: the command's one outcome with TABLE built, its words, and the zero case of linearity. -/
theorem updateFoldsTheByteIntoAcc : Obligations.UpdateFoldsTheByteIntoAcc :=
  ⟨fun wd b byte hbuilt => exec_update_of_built (s := ⟨wd, b⟩) hbuilt byte, fun _ _ => decode_update_cases, updateByte_zero⟩

/-! ### Which commands read OPND (decision D18) -/

/-- A command other than CRC.REV answers the same next state whatever stands on OPND, but for OPND itself. -/
theorem exists_exec_of_ne_rev {wd : Width} {b : Block wd.bits} {i : Instr} (hready : b.tableReady = true) (hrev : i ≠ .rev) :
    ∃ b' : Block wd.bits, ∀ x, exec i ⟨wd, { b with opnd := x }⟩ = .next ⟨wd, { b' with opnd := x }⟩ := by
  obtain ⟨T, hT⟩ := Option.isSome_iff_exists.mp ((Block.tableRead?_isSome b).trans hready)
  cases i with
  | reset =>
    exact ⟨(b.writeAcc (initAdj b.params)).respondNone, fun x => exec_reset ⟨wd, { b with opnd := x }⟩⟩
  | update byte =>
    exact ⟨(b.writeAcc (updateByte T b.params.dir b.acc byte)).respondNone,
      fun x => exec_update_of_read (s := ⟨wd, { b with opnd := x }⟩) hT byte⟩
  | final => exact ⟨b.respondValue (finalize b.params b.acc), fun x => exec_final ⟨wd, { b with opnd := x }⟩⟩
  | tread index =>
    rcases Nat.lt_or_ge index.toNat b.params.chunk.entries with hindex | hindex
    · exact ⟨b.respondValue (T (index.setWidth b.params.chunk.bits)),
        fun x => exec_tread_of_read (s := ⟨wd, { b with opnd := x }⟩) hT hindex⟩
    · exact ⟨b.raiseIllegalCommand, fun x => exec_tread_of_out_of_range (s := ⟨wd, { b with opnd := x }⟩) hindex⟩
  | rev => exact absurd rfl hrev

/-- Settles O49: an illegal word reads nothing, and a word other than 0x5000 is no CRC.REV. -/
theorem operandIsIgnoredExceptByRev : Obligations.OperandIsIgnoredExceptByRev := by
  intro wd b cmd rest hready hword
  cases hdec : decode b.params.chunk cmd with
  | illegal why =>
    exact ⟨Block.raiseIllegalCommand { b with inputs := rest },
      fun x => step_of_illegal (b := { b with inputs := .command cmd x :: rest }) hready rfl hdec⟩
  | command i =>
    have hrev : i ≠ .rev := by
      rintro rfl
      exact hword (decode_eq_command_iff.mp hdec).1
    obtain ⟨b', hexec⟩ := exists_exec_of_ne_rev (b := { b with inputs := rest }) hready hrev
    exact ⟨b', fun x =>
      (step_of_command (b := { b with inputs := .command cmd x :: rest }) hready rfl hdec).trans (hexec x)⟩

end Sys2Proof.Machine
end
section
/-! Proofs of the statements about streams of commands (spec/43_engine.md R135, spec/20_memory.md R51). With TABLE built each
well-formed command has one outcome, written out below; a stream ends with ACC at the fold of its commands and with the
answer of its last one. -/

namespace Sys2Proof.Machine

/-- What a well-formed command answers, from ACC and OPND before it (R27, R84, R98, R133). -/
def answerOf {w : Nat} (p : Params w) (acc opnd : BitVec w) : Instr → Response w
  | .reset => ⟨.none, 0#w⟩
  | .update _ => ⟨.none, 0#w⟩
  | .final => ⟨.value, finalize p acc⟩
  | .tread index => ⟨.value, entryOf p (index.setWidth p.chunk.bits)⟩
  | .rev => ⟨.value, reverseBits opnd⟩

/-- The block after a well-formed command that was sent with OPND `x`. -/
def Block.afterCommand {w : Nat} (b : Block w) (i : Instr) (x : BitVec w) (rest : List (Input w)) : Block w :=
  { b with
    acc := accAfter b.params b.acc i, inputs := rest, opnd := x, response := some (answerOf b.params b.acc x i) }

variable {wd : Width} {b : Block wd.bits} {i : Instr} {x : BitVec wd.bits} {rest : List (Input wd.bits)}
  {sent : List (Instr × BitVec wd.bits)}

/-- With TABLE built, the step that takes a well-formed command. -/
theorem step_of_wf (hbuilt : b.TableBuilt) (hwf : i.wf b.params.chunk = true)
    (hin : b.inputs = .command (encode i) x :: rest) : step ⟨wd, b⟩ = .next ⟨wd, b.afterCommand i x rest⟩ := by
  rw [step_of_command (Block.tableReady_of_built hbuilt) hin (decodeEncodeRoundTrip _ i hwf)]
  cases i with
  | reset => exact exec_reset ⟨wd, b.acceptCommand x rest⟩
  | update byte => exact exec_update_of_built (s := ⟨wd, b.acceptCommand x rest⟩) hbuilt byte
  | final => exact exec_final ⟨wd, b.acceptCommand x rest⟩
  | tread index => exact exec_tread_of_built (s := ⟨wd, b.acceptCommand x rest⟩) hbuilt (Instr.wf_tread.mp hwf)
  | rev => exact exec_rev ⟨wd, b.acceptCommand x rest⟩

/-- ACC after a stream of commands (R21, R135). -/
def accAfterAll {w : Nat} (p : Params w) (acc : BitVec w) (sent : List (Instr × BitVec w)) : BitVec w :=
  sent.foldl (fun acc c => accAfter p acc c.1) acc

/-- A stream of well-formed commands is performed in as many steps as it has commands; OPND and the response
are left unsaid, since an empty stream leaves those before it. -/
theorem exists_run_commandInputs (k : Nat) (hbuilt : b.TableBuilt) (hwf : ∀ c ∈ sent, c.1.wf b.params.chunk = true)
    (hin : b.inputs = commandInputs sent ++ rest) :
    ∃ y r, run (sent.length + k) ⟨wd, b⟩ = run k ⟨wd, { b with
      acc := accAfterAll b.params b.acc sent, inputs := rest, opnd := y, response := r }⟩ := by
  induction sent generalizing b with
  | nil =>
    rw [commandInputs_nil, List.nil_append] at hin
    refine ⟨b.opnd, b.response, ?_⟩
    rw [List.length_nil, Nat.zero_add, ← hin]
    rfl
  | cons c sent ih =>
    obtain ⟨hc, hsent⟩ := List.forall_mem_cons.mp hwf
    rw [List.length_cons, Nat.add_right_comm, run_succ_of_next (step_of_wf hbuilt hc hin)]
    exact ih (b := b.afterCommand c.1 c.2 (commandInputs sent ++ rest)) hbuilt hsent rfl

/-- A stream with a last command leaves that command's operand and answer. -/
theorem run_commandInputs_concat (hbuilt : b.TableBuilt) (hwf : ∀ c ∈ sent ++ [(i, x)], c.1.wf b.params.chunk = true)
    (hin : b.inputs = commandInputs (sent ++ [(i, x)]) ++ rest) :
    run (sent ++ [(i, x)]).length ⟨wd, b⟩ = .next ⟨wd, { b with
      acc := accAfter b.params (accAfterAll b.params b.acc sent) i, inputs := rest, opnd := x,
      response := some (answerOf b.params (accAfterAll b.params b.acc sent) x i) }⟩ := by
  obtain ⟨hsent, hi⟩ := List.forall_mem_append.mp hwf
  rw [commandInputs_append, List.append_assoc] at hin
  obtain ⟨y, r, hrun⟩ := exists_run_commandInputs 1 hbuilt hsent hin
  rw [List.length_append, List.length_singleton, hrun]
  exact run_succ_of_next (step_of_wf hbuilt (hi _ (List.mem_singleton_self _)) rfl)

/-- ACC after CRC.RESET and a message's updates, whatever stood before (R135). -/
theorem accAfterAll_reset_updateCommands {w : Nat} (p : Params w) (acc x : BitVec w) (before : List (Instr × BitVec w))
    (message : List (Byte × BitVec w)) :
    accAfterAll p acc (before ++ (.reset, x) :: updateCommands message) =
      foldMessage p (initAdj p) (message.map Prod.fst) := by
  rw [accAfterAll, List.foldl_append, List.foldl_cons, accAfter_reset, foldl_accAfter_updateCommands]

/-- The command sequence of a message is its CRC.RESET and updates, then CRC.FINAL. -/
theorem checksumCommands_eq_concat {w : Nat} (x y : BitVec w) (message : List (Byte × BitVec w)) :
    checksumCommands x message y = ((.reset, x) :: updateCommands message) ++ [(.final, y)] := rfl

theorem wf_of_mem_checksumCommands {w : Nat} {x y : BitVec w} {message : List (Byte × BitVec w)} (c : Chunk)
    {sent : Instr × BitVec w} (h : sent ∈ checksumCommands x message y) : sent.1.wf c = true := by
  simp only [checksumCommands, updateCommands, List.mem_cons, List.mem_append, List.mem_map, List.not_mem_nil, or_false] at h
  rcases h with rfl | ⟨m, -, rfl⟩ | rfl <;> rfl

/-- Settles O37: the stream ends with CRC.FINAL, whose answer is the fold from INIT_ADJ, XOR XOROUT; the fold is the same for
every table size. -/
theorem commandSequenceComputesTheChecksum : Obligations.CommandSequenceComputesTheChecksum := by
  intro wd b message x y rest hbuilt hin
  refine ⟨?_, fun c => ?_⟩
  · have hrun := run_commandInputs_concat (sent := (.reset, x) :: updateCommands message) hbuilt
      (fun c hc => wf_of_mem_checksumCommands b.params.chunk hc) hin
    have hacc := accAfterAll_reset_updateCommands b.params b.acc x [] message
    have hlength : (((Instr.reset, x) :: updateCommands message) ++ [(Instr.final, y)]).length = message.length + 2 := by
      simp [updateCommands]
    rw [List.nil_append] at hacc
    rw [hlength, hacc] at hrun
    exact hrun
  · exact congrArg (finalize b.params)
      (foldMessage_chunk (Chunk.bits_le_width .large wd) b.params c (initAdj b.params) (message.map Prod.fst))

/-- Settles O40: the mixed inputs are those of the mixed stream, whose commands are well formed as each stream's are; its run
has the fold in ACC, and with a CRC.FINAL last, that command's answer. -/
theorem unsynchronisedIssuersGetTheMixedStream : Obligations.UnsynchronisedIssuersGetTheMixedStream := by
  intro wd b schedule streams rest hbuilt hwf hin
  rw [interleave_commandInputs] at hin
  have hmixed : ∀ c ∈ interleave schedule streams, c.1.wf b.params.chunk = true := fun c hc =>
    let ⟨stream, hstream, hc⟩ := exists_stream_of_mem_interleave hc
    hwf stream hstream c hc
  generalize interleave schedule streams = mixed at hin hmixed
  obtain ⟨y, r, hrun⟩ := exists_run_commandInputs 0 hbuilt hmixed hin
  rw [Nat.add_zero, run_zero] at hrun
  have hfinal (before : List (Instr × BitVec wd.bits)) (z : BitVec wd.bits) (hlast : mixed = before ++ [(.final, z)]) :
      r = some ⟨.value, accAfterAll b.params b.acc before ^^^ b.params.xorout⟩ := by
    subst hlast
    have hconcat := hrun.symm.trans (run_commandInputs_concat hbuilt hmixed hin)
    simp only [Host.Outcome.next.injEq, State.mk.injEq, heq_eq_eq, true_and, and_true, Block.mk.injEq] at hconcat
    obtain ⟨-, -, hresponse⟩ := hconcat
    exact hresponse
  refine ⟨_, hrun, rfl, rfl, rfl, rfl, rfl, fun before z hlast => ?_, fun before x z message hlast => ?_⟩
  · rw [hfinal before z hlast, hlast, accAfterAll, accAfterAll, List.foldl_append]
    rfl
  · rw [checksumCommands_eq_concat, ← List.append_assoc] at hlast
    rw [hfinal _ z hlast, accAfterAll_reset_updateCommands]
    rfl

end Sys2Proof.Machine
end
section
/-! Proofs of the statements about values the spec writes out (spec/95_test_vectors.md) and about the command text
(spec/30_encoding.md R68, R69). A value is evaluated for the small table, and is that of every table size by R116. -/

namespace Sys2Proof.Machine

/-- The checksum of a message is that of a core with the small table. -/
theorem checksum_eq_small {w : Nat} (hw : 8 ≤ w) (poly init xorout : BitVec w) (dir : Dir) (c : Chunk) (message : List Byte) :
    checksum ⟨poly, init, xorout, dir, c⟩ message = checksum ⟨poly, init, xorout, dir, .small⟩ message :=
  congrArg (· ^^^ xorout) (foldMessage_chunk hw ⟨poly, init, xorout, dir, .small⟩ c _ message)

/-- Settles O38: each value by evaluation with the small table. -/
theorem goldenCheckValues : Obligations.GoldenCheckValues := by
  intro c
  refine ⟨?_, ?_, ?_, ?_, ?_, ?_, ?_⟩ <;> rw [checksum_eq_small (by decide)] <;> decide

/-- Settles O39: each value by evaluation with the small table. -/
theorem byteOrderMatters : Obligations.ByteOrderMatters := by
  intro c
  refine ⟨?_, ?_, ?_, ?_⟩ <;> rw [checksum_eq_small (by decide)] <;> decide

/-- Settles O28: both updates by evaluation, for each table size. -/
theorem zeroByteNeedNotChangeAcc : Obligations.ZeroByteNeedNotChangeAcc := by
  intro c
  cases c <;> decide

/-! ### Command text -/

/-- Settles O54: the expansions are those of the definition, and the example is assembled by evaluation. -/
theorem pseudoInstructionsExpand : Obligations.PseudoInstructionsExpand :=
  ⟨fun _ => rfl, fun _ => rfl, fun _ => rfl, by decide⟩

/-- The word of a command whose operand is a number that fits IMM8. -/
theorem commandWord_ofNat {n : Nat} (hn : n < 0x100) (op : BitVec 4) :
    commandWord op (BitVec.ofNat 8 n) = commandWord op 0x00#8 ||| BitVec.ofNat 16 n := by
  rw [commandWord_eq_or, BitVec.setWidth_ofNat_of_le_of_lt (by decide) hn]

theorem Chunk.entries_le (c : Chunk) : c.entries ≤ 0x100 := by cases c <;> decide

/-- Settles O55: each command's branch of the assembler, with an operand that fits IMM8 in the word; the same tests refuse the
others, and CRC.RESET and CRC.FINAL take no token after the mnemonic. -/
theorem assemblerGivesTheListedWords : Obligations.AssemblerGivesTheListedWords := by
  intro wd c
  refine ⟨rfl, fun n hn => ?_, rfl, fun n hn => ?_, fun n hn => if_pos hn, fun n hn => if_neg (Nat.not_le.mpr hn),
    fun n hn => if_neg (Nat.not_lt.mpr hn), fun t ts => ⟨rfl, rfl⟩⟩
  · rw [AsmCommand.assemble, if_pos hn, encode, commandWord_ofNat (Nat.lt_succ_of_le hn)]
    rfl
  · rw [AsmCommand.assemble, if_pos hn, encode, commandWord_ofNat (hn.trans_le (Chunk.entries_le c))]
    rfl

end Sys2Proof.Machine
end
